-- ==== Sys2Proof/Word.lean ====
section
/-! DEFINITION. The words the block moves (00_scope.md R8, 30_encoding.md R41, R42) and the type of its matrix
(10_state.md R14). Bit 0 is the least significant bit of every word. -/

namespace Sys2Proof

/-- A message, a data half, a parity half or a row of the matrix (R13, R14). -/
abbrev Word12 := BitVec 12

/-- A codeword, or a received word: bits 23..12 the data half, bits 11..0 the parity half (20_memory.md R31). -/
abbrev Word24 := BitVec 24

/-- OPERAND and RESULT (R41, R42). -/
abbrev Word32 := BitVec 32

/-- The opcode field OP (R41). -/
abbrev Op := BitVec 3

/-- One request word REQ = OP in bits 34..32, OPERAND in bits 31..0 (R41). -/
abbrev Req := BitVec 35

/-- The generator matrix: the 12 constants G[0] to G[11], each 12 bits (R14). -/
structure GenMatrix where
  rows : Vector Word12 12
deriving DecidableEq, Repr

/-- One response (R42): the illegal-operation bit RSP[32] and RSP[31:0]. -/
structure Response where
  illegal : Bool
  result : Word32
deriving DecidableEq, Repr

end Sys2Proof
end

