-- ==== Sys2Proof/Syntax.lean ====
section
/-! DEFINITION. The instructions: one constructor per row of spec/opcode_table.json, each with its whole 32-bit
OPERAND, ignored bits included (30_encoding.md R41, R43, R47). Then the words of the assembler (R49). -/

namespace Sys2Proof

/-- A request, decoded (R43). The three reserved opcodes are rows of the table and requests the block answers (R47). -/
inductive Instr where
  | bitparity (operand : Word32)
  | popcount (operand : Word32)
  | matmul (operand : Word32)
  | encode (operand : Word32)
  | decode (operand : Word32)
  | reserved5 (operand : Word32)
  | reserved6 (operand : Word32)
  | reserved7 (operand : Word32)
deriving DecidableEq, Repr

/-- One row of spec/opcode_table.json: a request word is the row's when `word & mask = match` (R43). -/
structure OpcodeRow where
  mnemonic : String
  matchWord : Req
  mask : Req
deriving DecidableEq, Repr

/-- Why a number is no request: a request is exactly 35 bits (R48). -/
inductive DecodeError where
  | widerThanRequest
deriving DecidableEq, Repr

/-- The five mnemonics of the assembler (R43, R49). -/
inductive Mnemonic where
  | bitparity
  | popcount
  | matmul
  | encode
  | decode
deriving DecidableEq, Repr

/-- One line of assembler, its literals read but not yet checked (R49): `MNEMONIC operand` or `.req OP, operand`. -/
inductive Line where
  | op (mnemonic : Mnemonic) (operand : Nat)
  | raw (op operand : Nat)
deriving DecidableEq, Repr

/-- Why the assembler refuses a line (R49). -/
inductive AsmError where
  /-- The line has neither of R49's two forms. -/
  | notALine
  /-- The first word is none of the five mnemonics and not `.req`. -/
  | unknownMnemonic
  /-- A literal is not decimal, `0x` hexadecimal or `0b` binary. -/
  | notALiteral
  /-- A literal is above 2^32-1. -/
  | literalTooWide
  /-- The OP of a raw request is above 7, so it is no 3-bit field. -/
  | opTooWide
deriving DecidableEq, Repr

/-- What the assembler makes of a line: the request word, and whether it warns of set ignored bits (R49). -/
structure Assembled where
  req : Req
  warns : Bool
deriving DecidableEq, Repr

end Sys2Proof
end

