-- ==== Sys2Proof/Machine/Numeric.lean ====
section
/-! DEFINITION. The functions of 40_primitives.md on plain words: weight, parity and the GF(2) matrix product. -/

namespace Sys2Proof.Machine

/-- `wt(v)`: the number of set bits, as the sum of the bits (00_scope.md R10, 40_primitives.md R53). -/
def wt {n : Nat} (v : BitVec n) : Nat :=
  ((List.range n).map fun k => (v.getLsbD k).toNat).sum

/-- R51's function: the XOR of the 12 bits. -/
def parity12 (x : Word12) : Bool :=
  x[0] ^^ x[1] ^^ x[2] ^^ x[3] ^^ x[4] ^^ x[5] ^^ x[6] ^^ x[7] ^^ x[8] ^^ x[9] ^^ x[10] ^^ x[11]

/-- R53's function: the exact count, 0 to 32, in 6 bits. -/
def popcount32 (x : Word32) : BitVec 6 :=
  BitVec.ofNat 6 (wt x)

/-- The matrix indices 0, 1, ..., 11 in ascending order (41_codec.md R61). -/
def matrixIndices : List (Fin 12) :=
  [0, 1, 2, 3, 4, 5, 6, 7, 8, 9, 10, 11]

/-- `G[i]` (00_scope.md R11, 10_state.md R14). -/
def matrixRow (G : GenMatrix) (i : Fin 12) : Word12 :=
  G.rows[i]

/-- `1 << (11 - i)`: the bit position that matrix index i stands for (10_state.md R15). -/
def unitMsb (i : Fin 12) : Word12 :=
  1#12 <<< (11 - i.val)

/-- A 12-bit word whose bit 11-i is `b i` (R54's `y[11 - i] = ...`). -/
def packMsbFirst (b : Fin 12 → Bool) : Word12 :=
  matrixIndices.foldl (fun y i => if b i then y ||| unitMsb i else y) 0#12

/-- `MATMUL(x)`: bit 11-i is the parity of `x & G[i]` (R54). -/
def matmul12 (G : GenMatrix) (x : Word12) : Word12 :=
  packMsbFirst fun i => parity12 (x &&& matrixRow G i)

/-- R52's fold of the upper 6 bits onto the lower 6. -/
def fold6 (x : Word12) : BitVec 6 :=
  x.extractLsb' 6 6 ^^^ x.extractLsb' 0 6

/-- R52's table T: `T[v] = par(v)` for the 64 values of v, listed from v = 0. -/
def parityTable : List Bool :=
  (List.range 64).map fun v => wt (BitVec.ofNat 6 v) % 2 == 1

/-- R52's lookup form of BITPARITY. No meaning uses it: only R51's function is architectural. -/
def parityByTable (x : Word12) : Bool :=
  parityTable.getD (fold6 x).toNat false

end Sys2Proof.Machine
end

