-- ==== Sys2Proof/Machine/Golay.lean ====
section
/-! DEFINITION. The encoder and the decoder of 41_codec.md on plain words, for any matrix. -/

namespace Sys2Proof.Machine

/-- `ENCODE(m)`: the message above its parity (R58, layout 20_memory.md R31). -/
def encode24 (G : GenMatrix) (m : Word12) : Word24 :=
  m ++ matmul12 G m

/-- The data half `c[23:12]` (R31). -/
def dataHalf (c : Word24) : Word12 :=
  c.extractLsb' 12 12

/-- The parity half `c[11:0]` (R31). -/
def parityHalf (c : Word24) : Word12 :=
  c.extractLsb' 0 12

/-- The syndrome `p ^ MATMUL(d)` (00_scope.md R13, 40_primitives.md R57). -/
def syndrome (G : GenMatrix) (c : Word24) : Word12 :=
  parityHalf c ^^^ matmul12 G (dataHalf c)

/-- ERR_RESULT, the value of an uncorrectable word (R62). -/
def errResult : BitVec 16 :=
  0xFFFF#16

/-- Which step of R60 decides, with the index i where the step searches, and the value it returns. -/
inductive DecodeBranch where
  | step2 (d : Word12)
  | step4 (d2 : Word12)
  | step5 (i : Fin 12) (v : Word12)
  | step6 (i : Fin 12) (d3 : Word12)
  | step7
deriving DecidableEq, Repr

/-- Step 5: the first i, ascending, with `wt(p2 ^ G[i] ^ p) <= 2`; it flips data bit 11-i (R60, R61). -/
def searchData (G : GenMatrix) (d p p2 : Word12) : Option DecodeBranch :=
  matrixIndices.findSome? fun i =>
    let p3 := p2 ^^^ matrixRow G i
    if wt (p3 ^^^ p) ≤ 2 then some (.step5 i (d ^^^ unitMsb i)) else none

/-- Step 6: the first i, ascending, with `wt(d2 ^ G[i] ^ d) <= 2`; its value is d3 (R60, R61). -/
def searchParity (G : GenMatrix) (d d2 : Word12) : Option DecodeBranch :=
  matrixIndices.findSome? fun i =>
    let d3 := d2 ^^^ matrixRow G i
    if wt (d3 ^^^ d) ≤ 2 then some (.step6 i d3) else none

/-- Steps 1 to 7, tried in R61's order; p2 and d2 are computed once each. -/
def decodeBranch (G : GenMatrix) (c : Word24) : DecodeBranch :=
  let d := dataHalf c
  let p := parityHalf c
  let p2 := matmul12 G d
  if p2 = p ∨ wt (p ^^^ p2) ≤ 3 then .step2 d
  else
    let d2 := matmul12 G p
    if wt (d2 ^^^ d) ≤ 3 then .step4 d2
    else ((searchData G d p p2).or (searchParity G d d2)).getD .step7

/-- The 16-bit value a branch returns: a message, or ERR_RESULT from step 7 alone (R60, R62). -/
def branchValue : DecodeBranch → BitVec 16
  | .step2 d => d.setWidth 16
  | .step4 d2 => d2.setWidth 16
  | .step5 _ v => v.setWidth 16
  | .step6 _ d3 => d3.setWidth 16
  | .step7 => errResult

/-- `DECODE(c)` (R60). -/
def decode24 (G : GenMatrix) (c : Word24) : BitVec 16 :=
  branchValue (decodeBranch G c)

end Sys2Proof.Machine
end

