-- ==== Sys2Proof/WellFormed.lean ====
section
/-! DEFINITION. What is well formed: an assembler line (30_encoding.md R49) and a generator matrix, which is
admissible when it meets P1, P2 and P3 (10_state.md R16 to R19). Every instruction is well formed: each (OP, OPERAND)
pair is a request the block answers (30_encoding.md R47). -/

namespace Sys2Proof

/-- Every instruction is well formed: its operand is 32 bits by its type, and no operand value is illegal (R45, R47). -/
def Instr.wellFormed : Instr → Bool
  | .bitparity _ | .popcount _ | .matmul _ | .encode _ | .decode _ => true
  | .reserved5 _ | .reserved6 _ | .reserved7 _ => true

/-- A line's literals fit their fields: operand in 0..2^32-1, OP in 0..7 (R49). -/
def Line.wellFormed : Line → Bool
  | .op _ operand => decide (operand < 2 ^ 32)
  | .raw code operand => decide (code < 2 ^ 3) && decide (operand < 2 ^ 32)

/-- `A[i][c] = G[i][11-c]`: the matrix entry, columns counted from the most significant bit (10_state.md R15). -/
def GenMatrix.entry (G : GenMatrix) (i c : Fin 12) : Bool :=
  (Machine.matrixRow G i).getLsbD (11 - c.val)

/-- P1: `A[i][c] = A[c][i]` (R17). -/
abbrev GenMatrix.Symmetric (G : GenMatrix) : Prop :=
  ∀ i c : Fin 12, G.entry i c = G.entry c i

/-- P2, in the form R18 calls equivalent to `A · A = I`: `MATMUL(MATMUL(x)) = x` for every x. -/
def GenMatrix.Involutive (G : GenMatrix) : Prop :=
  ∀ x : Word12, Machine.matmul12 G (Machine.matmul12 G x) = x

/-- P3: every nonzero message has a codeword of weight at least 8 (R19). -/
def GenMatrix.DistanceEight (G : GenMatrix) : Prop :=
  ∀ m : Word12, m ≠ 0 → 8 ≤ Machine.wt (Machine.encode24 G m)

/-- Admissible: P1, P2 and P3. Nothing else may be assumed of GOLAY_MATRIX (R16). -/
structure GenMatrix.Admissible (G : GenMatrix) : Prop where
  symmetric : G.Symmetric
  involutive : G.Involutive
  distance : G.DistanceEight

end Sys2Proof
end

