-- ==== Sys2Proof/Laws/Gf2.lean ====
section
/-! SUPPORT. The functions of Machine/Numeric.lean are linear over GF(2), and a linear function on 12-bit words is fixed
by its values on the twelve unit vectors. -/

namespace Sys2Proof.Laws

open Sys2Proof.Machine

/-- The parity tree is additive. -/
theorem parity12_xor (x y : Word12) : parity12 (x ^^^ y) = (parity12 x ^^ parity12 y) := by
  have : Std.Commutative xor := ⟨Bool.xor_comm⟩
  simp only [parity12, BitVec.getElem_xor]
  ac_rfl

/-- The unit vector of index i has bit 11-i alone. -/
theorem getLsbD_unitMsb (i j : Fin 12) : (unitMsb i).getLsbD (11 - j.val) = decide (i = j) := by
  revert i j; decide

/-- One bit of the packing fold: set at the start, or set by some index of the list. -/
theorem getLsbD_packFold (b : Fin 12 → Bool) (k : Nat) (l : List (Fin 12)) (y : Word12) :
    (l.foldl (fun y i => if b i then y ||| unitMsb i else y) y).getLsbD k
      = (y.getLsbD k || l.any fun i => b i && (unitMsb i).getLsbD k) := by
  induction l generalizing y with
  | nil => simp
  | cons i l ih => cases h : b i <;> simp [ih, h, Bool.or_assoc]

/-- Bit 11-i of a packed word is the value at index i (R54). -/
@[simp] theorem getLsbD_packMsbFirst (b : Fin 12 → Bool) (i : Fin 12) :
    (packMsbFirst b).getLsbD (11 - i.val) = b i := by
  rw [packMsbFirst, getLsbD_packFold]
  simp only [getLsbD_unitMsb]
  fin_cases i <;> simp [matrixIndices]

/-- Two 12-bit words with the same bits at the positions 11-i are equal. -/
theorem eq_of_msbBits {x y : Word12} (h : ∀ i : Fin 12, x.getLsbD (11 - i.val) = y.getLsbD (11 - i.val)) : x = y := by
  apply BitVec.eq_of_getLsbD_eq
  intro k hk
  have := h ⟨11 - k, by omega⟩
  rwa [show 11 - (11 - k) = k by omega] at this

/-- Bit 11-i of the product is the parity of `x & G[i]` (R54). -/
@[simp] theorem getLsbD_matmul12 (G : GenMatrix) (x : Word12) (i : Fin 12) :
    (matmul12 G x).getLsbD (11 - i.val) = parity12 (x &&& matrixRow G i) :=
  getLsbD_packMsbFirst _ i

/-- The matrix product is additive. -/
theorem matmul12_xor (G : GenMatrix) (x y : Word12) : matmul12 G (x ^^^ y) = matmul12 G x ^^^ matmul12 G y := by
  apply eq_of_msbBits
  intro i
  rw [BitVec.getLsbD_xor, getLsbD_matmul12, getLsbD_matmul12, getLsbD_matmul12, ← parity12_xor]
  congr 1
  ext k
  simp [Bool.and_xor_distrib_right]

/-- The encoder is additive. -/
theorem encode24_xor (G : GenMatrix) (x y : Word12) : encode24 G (x ^^^ y) = encode24 G x ^^^ encode24 G y := by
  apply BitVec.eq_of_getLsbD_eq
  intro k _
  simp only [encode24, matmul12_xor, BitVec.getLsbD_append, BitVec.getLsbD_xor]
  split <;> rfl

/-- XOR of the words that a list of bits selects from a list of words. -/
def selectXor {n : Nat} : List Bool → List (BitVec n) → BitVec n
  | b :: bs, g :: gs => (if b then g else 0#n) ^^^ selectXor bs gs
  | _, _ => 0#n

/-- The bits of a word in the order of the matrix indices. -/
def msbBits (x : Word12) : List Bool :=
  matrixIndices.map fun i => x.getLsbD (11 - i.val)

/-- A word is the XOR of the unit vectors at its set bits. -/
theorem selectXor_units (x : Word12) : selectXor (msbBits x) (matrixIndices.map unitMsb) = x := by
  apply eq_of_msbBits
  intro j
  simp only [msbBits, matrixIndices, List.map_cons, List.map_nil, selectXor, BitVec.getLsbD_xor]
  have pick : ∀ (b : Bool) (i : Fin 12),
      (if b then unitMsb i else 0#12).getLsbD (11 - j.val) = (b && decide (i = j)) := by
    intro b i; cases b <;> simp [getLsbD_unitMsb]
  simp only [pick]
  fin_cases j <;> simp

/-- An additive function passes through a selection. -/
theorem additive_selectXor {n : Nat} (F : Word12 → BitVec n) (hF : ∀ x y, F (x ^^^ y) = F x ^^^ F y)
    (bs : List Bool) (gs : List Word12) : F (selectXor bs gs) = selectXor bs (gs.map F) := by
  have h0 : F 0#12 = 0#n := by
    have h := hF 0#12 0#12
    simpa using h
  induction bs generalizing gs with
  | nil => cases gs <;> simpa [selectXor] using h0
  | cons b bs ih =>
    cases gs with
    | nil => simpa [selectXor] using h0
    | cons g gs => cases b <;> simp [selectXor, hF, ih]

/-- An additive function is fixed by its values on the unit vectors. -/
theorem additive_eq_selectXor {n : Nat} (F : Word12 → BitVec n) (hF : ∀ x y, F (x ^^^ y) = F x ^^^ F y) (x : Word12) :
    F x = selectXor (msbBits x) (matrixIndices.map fun i => F (unitMsb i)) := by
  conv_lhs => rw [← selectXor_units x]
  rw [additive_selectXor F hF, List.map_map]
  rfl

end Sys2Proof.Laws
end

