-- ==== Sys2Proof/Machine/Reference.lean ====
section
/-! DEFINITION. The reference instantiation REF of 10_state.md R22. PRESUMED by the spec itself (general knowledge, not in
its source); log entry 10. The machine does not use REF: it shows that an admissible matrix exists, and the spec's test
vectors name it. -/

namespace Sys2Proof.Machine

/-- REF, G[0] to G[11] (R22). -/
def refMatrix : GenMatrix :=
  ⟨#v[0xDC5#12, 0xB8B#12, 0x717#12, 0xE2D#12, 0xC5B#12, 0x8B7#12,
      0x16F#12, 0x2DD#12, 0x5B9#12, 0xB71#12, 0x6E3#12, 0xFFE#12]⟩

end Sys2Proof.Machine
end

