-- ==== Sys2Proof/Laws/Reference.lean ====
section
/-! SUPPORT. REF is admissible (10_state.md R22), so an admissible matrix exists. P1 is 144 entries. P2 follows by
linearity from the twelve unit vectors. P3 is a search over the 4096 selections of the twelve encoded unit vectors, on
plain numbers. -/

namespace Sys2Proof.Laws

open Sys2Proof.Machine

/-- P1 for REF. -/
theorem refMatrix_symmetric : refMatrix.Symmetric := by
  decide

/-- REF applied twice fixes the unit vectors. -/
theorem refMatrix_twice_units :
    (matrixIndices.map fun i => matmul12 refMatrix (matmul12 refMatrix (unitMsb i))) = matrixIndices.map unitMsb := by
  decide +kernel

/-- P2 for REF. -/
theorem refMatrix_involutive : refMatrix.Involutive := by
  intro x
  rw [additive_eq_selectXor (fun x => matmul12 refMatrix (matmul12 refMatrix x)) (by simp [matmul12_xor]) x,
    refMatrix_twice_units, selectXor_units]

/-- The weight of a number's low `k` bits. -/
def natWeight : Nat → Nat → Nat
  | 0, _ => 0
  | k + 1, v => v % 2 + natWeight k (v / 2)

/-- Every selection from a list of numbers, XORed onto `acc`, has weight at least 8 in 24 bits, but for the empty one. -/
def spanHeavy : List Nat → Nat → Bool → Bool
  | [], acc, picked => !picked || Nat.ble 8 (natWeight 24 acc)
  | g :: gs, acc, picked => spanHeavy gs acc picked && spanHeavy gs (Nat.xor acc g) true

/-- The encoded unit vectors of REF. -/
def refGenerators : List Word24 :=
  matrixIndices.map fun i => encode24 refMatrix (unitMsb i)

/-- The search succeeds on REF. -/
theorem refGenerators_heavy : spanHeavy (refGenerators.map BitVec.toNat) 0 false = true := by
  decide +kernel

/-- The weight of a number is the sum of its bits. -/
theorem natWeight_eq_sum (k v : Nat) : natWeight k v = ((List.range k).map fun j => (v.testBit j).toNat).sum := by
  induction k generalizing v with
  | zero => rfl
  | succ k ih =>
    rw [natWeight, List.range_succ_eq_map, List.map_cons, List.sum_cons, ih, List.map_map]
    congr 1
    · rw [Nat.testBit_zero]
      rcases Nat.mod_two_eq_zero_or_one v with h | h <;> simp [h]
    · congr 2
      funext j
      simp [Nat.testBit_succ]

/-- The weight of a word, on plain numbers. -/
theorem natWeight_toNat (v : Word24) : natWeight 24 v.toNat = wt v := by
  rw [natWeight_eq_sum]
  rfl

/-- What a successful search says of every selection. -/
theorem spanHeavy_sound (gs : List Word24) (acc : Word24) (picked : Bool) (bs : List Bool)
    (hlen : bs.length = gs.length) (h : spanHeavy (gs.map BitVec.toNat) acc.toNat picked = true)
    (hp : picked = true ∨ true ∈ bs) : 8 ≤ wt (acc ^^^ selectXor bs gs) := by
  induction gs generalizing acc picked bs with
  | nil =>
    obtain rfl : bs = [] := List.length_eq_zero_iff.mp hlen
    have hpick : picked = true := by simpa using hp
    subst hpick
    have h8 : 8 ≤ natWeight 24 acc.toNat := Nat.ble_eq.mp (by simpa [spanHeavy] using h)
    simpa [selectXor, natWeight_toNat] using h8
  | cons g gs ih =>
    obtain ⟨b, bs, rfl⟩ : ∃ b bs', bs = b :: bs' := by
      cases bs with
      | nil => simp at hlen
      | cons b bs => exact ⟨b, bs, rfl⟩
    have hlen' : bs.length = gs.length := by simpa using hlen
    rw [List.map_cons, spanHeavy, Bool.and_eq_true] at h
    cases b with
    | false =>
      have := ih acc picked bs hlen' h.1 (by simpa using hp)
      simpa [selectXor] using this
    | true =>
      have hx : (acc ^^^ g).toNat = Nat.xor acc.toNat g.toNat := BitVec.toNat_xor ..
      have := ih (acc ^^^ g) true bs hlen' (by rw [hx]; exact h.2) (Or.inl rfl)
      simpa [selectXor, BitVec.xor_assoc] using this

/-- A nonzero word has a set bit. -/
theorem true_mem_msbBits {m : Word12} (h : m ≠ 0) : true ∈ msbBits m := by
  by_contra hm
  apply h
  apply eq_of_msbBits
  intro i
  have hi : m.getLsbD (11 - i.val) ∈ msbBits m := by
    unfold msbBits
    exact List.mem_map_of_mem (f := fun i : Fin 12 => m.getLsbD (11 - i.val)) (by fin_cases i <;> simp [matrixIndices])
  cases hb : m.getLsbD (11 - i.val) with
  | false => simp
  | true => exact absurd (hb ▸ hi) hm

/-- P3 for REF. -/
theorem refMatrix_distance : refMatrix.DistanceEight := by
  intro m hm
  rw [additive_eq_selectXor (encode24 refMatrix) (encode24_xor refMatrix) m]
  have := spanHeavy_sound refGenerators 0 false (msbBits m) rfl refGenerators_heavy (Or.inr (true_mem_msbBits hm))
  simpa [refGenerators] using this

/-- REF meets P1, P2 and P3. -/
theorem refMatrix_admissible : refMatrix.Admissible :=
  ⟨refMatrix_symmetric, refMatrix_involutive, refMatrix_distance⟩

end Sys2Proof.Laws
end

