-- ==== Sys2Proof/Config.lean ====
section
/-! DEFINITION. What an implementation fixes. One parameter of 00_scope.md R7 is OPEN and architectural: GOLAY_MATRIX.
The others that are OPEN, LATENCY and PORT_PROTOCOL, have no place in a model without time (R89, 92_eei_decisions.md D21);
when a response is given is data in State (log entry 2). -/

namespace Sys2Proof

/-- A matrix together with the proof that it is admissible (10_state.md R16). -/
abbrev AdmissibleMatrix := { G : GenMatrix // G.Admissible }

/-- GOLAY_MATRIX (R16): some admissible matrix, and nothing more is known of it. It has no body, so no proof can see its
constants. The bracketed argument says that admissible matrices exist. Log entry 1. -/
opaque Config.golayMatrix [Inhabited AdmissibleMatrix] : AdmissibleMatrix

/-- The contents of the matrix ROM: GOLAY_MATRIX at every moment (70_reset_and_hazards.md R83). -/
def Config.golayRom : GenMatrix :=
  (@Config.golayMatrix ⟨⟨Machine.refMatrix, Laws.refMatrix_admissible⟩⟩).val

/-- GOLAY_MATRIX is admissible (R16). -/
theorem Config.golayRom_admissible : Config.golayRom.Admissible :=
  (@Config.golayMatrix ⟨⟨Machine.refMatrix, Laws.refMatrix_admissible⟩⟩).property

end Sys2Proof
end

