-- ==== Sys2Proof/Decode.lean ====
section
/-! DEFINITION. Decoding a request word and encoding an instruction (30_encoding.md R41, R43, R47, R48). A request is one
parallel 35-bit word, so there are no bytes to order (20_memory.md R32); log entry 9. -/

namespace Sys2Proof

/-- REQ[34:32] (R41). -/
def reqOp (w : Req) : Op :=
  w.extractLsb' 32 3

/-- REQ[31:0] (R41). -/
def reqOperand (w : Req) : Word32 :=
  w.extractLsb' 0 32

/-- The request word `(OP << 32) | OPERAND` (R41). -/
def requestWord (code : Op) (operand : Word32) : Req :=
  code ++ operand

/-- The instruction a request word is. OP alone selects it, and every OP value has a row (R43, R47). -/
def decode (w : Req) : Instr :=
  match (reqOp w).toFin with
  | 0 => .bitparity (reqOperand w)
  | 1 => .popcount (reqOperand w)
  | 2 => .matmul (reqOperand w)
  | 3 => .encode (reqOperand w)
  | 4 => .decode (reqOperand w)
  | 5 => .reserved5 (reqOperand w)
  | 6 => .reserved6 (reqOperand w)
  | 7 => .reserved7 (reqOperand w)

/-- The request word of a number of bits, refused when the number is no 35-bit word (R48). Bits at and above `nbits` are 0. -/
def requestOfNat (nbits w : Nat) : Except DecodeError Req :=
  if w % 2 ^ nbits < 2 ^ 35 then .ok (BitVec.ofNat 35 (w % 2 ^ nbits)) else .error .widerThanRequest

/-- Decoding a number: a request of exactly 35 bits, or refused by name (R48). -/
def decodeNat (nbits w : Nat) : Except DecodeError Instr :=
  match requestOfNat nbits w with
  | .ok r => .ok (decode r)
  | .error e => .error e

/-- The instruction that the opcode table's bits `w` are, where they are a request. -/
def decodeTableWord (nbits w : Nat) : Option Instr :=
  match decodeNat nbits w with
  | .ok i => some i
  | .error _ => none

/-- The OP value of an instruction (R43). -/
def opOf : Instr → Op
  | .bitparity _ => 0b000#3
  | .popcount _ => 0b001#3
  | .matmul _ => 0b010#3
  | .encode _ => 0b011#3
  | .decode _ => 0b100#3
  | .reserved5 _ => 0b101#3
  | .reserved6 _ => 0b110#3
  | .reserved7 _ => 0b111#3

/-- The whole OPERAND of an instruction, ignored bits included (R41). -/
def operandOf : Instr → Word32
  | .bitparity x | .popcount x | .matmul x | .encode x | .decode x => x
  | .reserved5 x | .reserved6 x | .reserved7 x => x

/-- The request word of an instruction (R41, R43). -/
def encode (i : Instr) : Req :=
  requestWord (opOf i) (operandOf i)

/-- An instruction's row of the table (R43). -/
def mnemonicOf : Instr → String
  | .bitparity _ => "BITPARITY"
  | .popcount _ => "POPCOUNT"
  | .matmul _ => "MATMUL"
  | .encode _ => "ENCODE"
  | .decode _ => "DECODE"
  | .reserved5 _ => "RESERVED_5"
  | .reserved6 _ => "RESERVED_6"
  | .reserved7 _ => "RESERVED_7"

/-- spec/opcode_table.json: match `OP << 32`, mask 0x7_0000_0000 (R43). -/
def opcodeTable : List OpcodeRow :=
  [⟨"BITPARITY", 0x000000000#35, 0x700000000#35⟩,
   ⟨"POPCOUNT", 0x100000000#35, 0x700000000#35⟩,
   ⟨"MATMUL", 0x200000000#35, 0x700000000#35⟩,
   ⟨"ENCODE", 0x300000000#35, 0x700000000#35⟩,
   ⟨"DECODE", 0x400000000#35, 0x700000000#35⟩,
   ⟨"RESERVED_5", 0x500000000#35, 0x700000000#35⟩,
   ⟨"RESERVED_6", 0x600000000#35, 0x700000000#35⟩,
   ⟨"RESERVED_7", 0x700000000#35, 0x700000000#35⟩]

/-- The mnemonics of the rows a request word matches. -/
def matchingRows (w : Req) : List String :=
  (opcodeTable.filter fun r => w &&& r.mask == r.matchWord).map OpcodeRow.mnemonic

end Sys2Proof
end

