-- ==== Sys2Proof/Machine/State.lean ====
section
/-! DEFINITION. The state of the block at its interface (10_state.md R29, 70_reset_and_hazards.md R82 to R90). The block has
no registers, no program counter, no flags and no memory (R23 to R26, R30): what it has is the matrix ROM, and what its
interface has is the FIFO of accepted requests, the response last delivered, and the observation of the run. -/

namespace Sys2Proof.Machine

/-- A stop of the machine. One fault exists: the block itself never stops (60_exceptions.md R69, R71). -/
inductive Fault where
  /-- Raised by `readRsp`, when the host reads the response fields and no response has been delivered since reset
  (70_reset_and_hazards.md R84). Safe: no value is given for fields that have none. -/
  | noResponse
deriving DecidableEq, Repr

/-- A refusal. Nothing of this model refuses: every row of the table has its meaning. -/
inductive Refusal where
  /-- Raised by an arm of exec for an instruction without a meaning; no arm does. Safe: the machine stops. -/
  | notModelled (mnemonic : String)
deriving DecidableEq, Repr

/-- One entry of the fault record, under the name the spec gives it: a request whose OP is reserved (60_exceptions.md R71).
`index` is the request's position in the run, from 0. The fields are a DESIGN CHOICE (safe); log entry 5. -/
structure IllegalOp where
  index : Nat
  op : Op
deriving DecidableEq, Repr

/-- What the host, or the block's own progress, can do next at the port; log entry 2. -/
inductive PortEvent where
  /-- The block accepts a request (R41, R88). -/
  | accept (w : Req)
  /-- The block answers its oldest request, if it has one (R88). -/
  | serve
  /-- The reset input (R82). -/
  | reset
  /-- Power is removed and restored. R81 of 60_exceptions.md calls the loss of requests in flight the same as a reset; that the
  whole effect is the reset input's is DEDUCED (safe); log entry 18. -/
  | powerCycle
  /-- The host reads RSP.RESULT and RSP.ILLEGAL (R84). -/
  | readRsp
deriving DecidableEq, Repr

/-- The machine. -/
structure State where
  /-- The matrix ROM G[0..11] (10_state.md R14). -/
  rom : GenMatrix
  /-- The FIFO of accepted requests that have no response yet, oldest first (R88). -/
  pending : List Req
  /-- The response fields as last delivered; none when they carry no architectural value (R84). -/
  rsp : Option Response
  /-- The (request, response) pairs in issue order (R90). -/
  transcript : List (Req × Response)
  /-- The fault record, oldest first (R71, R90). -/
  faults : List IllegalOp
  /-- The model's own field: the events at the port that have not happened yet, in order; log entry 2. -/
  port : List PortEvent
deriving DecidableEq, Repr

/-- Right after reset (R29): the ROM holds GOLAY_MATRIX, no request is in flight, RSP carries no value, and nothing has been
observed. -/
def State.reset : State where
  rom := Config.golayRom
  pending := []
  rsp := none
  transcript := []
  faults := []
  port := []

/-- What a step does with a state: run one instruction on it, or end without one. -/
inductive Turn where
  | run (i : Instr) (s : State)
  | settled (outcome : Host.Outcome State Fault Refusal)

end Sys2Proof.Machine
end

