-- ==== Sys2Proof/Machine/Flags.lean ====
section
/-! DEFINITION. The block has no flags (10_state.md R25). What a response carries beside its value is the ILLEGAL bit
(30_encoding.md R42), and this file forms the response: the bit, and the value's place in RESULT (R46). -/

namespace Sys2Proof.Machine

/-- RESULT of a value of width w: the value at RESULT[w-1:0], every higher bit 0 (R46). -/
def placeResult {w : Nat} (v : BitVec w) : Word32 :=
  v.setWidth 32

/-- The response of one of the five operations: ILLEGAL is 0 (R42). -/
def legalResponse {w : Nat} (v : BitVec w) : Response :=
  ⟨false, placeResult v⟩

/-- The illegal-operation response: ILLEGAL = 1 and RESULT = 0 (60_exceptions.md R71). -/
def illegalResponse : Response :=
  ⟨true, 0#32⟩

/-- Whether an OP value is reserved, which is what ILLEGAL says of a request (R42, R47). -/
def opReserved (code : Op) : Bool :=
  decide (5 ≤ code.toNat)

/-- The 33-bit word RSP: ILLEGAL in bit 32, RESULT in bits 31..0 (R42). -/
def responseWord (r : Response) : BitVec 33 :=
  BitVec.ofBool r.illegal ++ r.result

/-- The response a 33-bit word RSP is (R42). -/
def responseOfWord (w : BitVec 33) : Response :=
  ⟨w.getLsbD 32, w.extractLsb' 0 32⟩

end Sys2Proof.Machine
end

