-- ==== Sys2Proof/Machine/Operands.lean ====
section
/-! DEFINITION. Operand assembly (30_encoding.md R44): which bits of OPERAND an operation reads. No operand is extended,
scaled or shifted, and the bits not read are ignored without a check (R45). -/

namespace Sys2Proof.Machine

/-- `OPERAND[11:0]`: the input of BITPARITY, MATMUL and ENCODE (R44). -/
def operand12 (operand : Word32) : Word12 :=
  operand.extractLsb' 0 12

/-- `OPERAND[23:0]`: the input of DECODE (R44). Ignoring OPERAND[31:24] is the spec's decision D6; log entry 11. -/
def operand24 (operand : Word32) : Word24 :=
  operand.extractLsb' 0 24

/-- `OPERAND[31:0]`: the input of POPCOUNT (R44). -/
def operand32 (operand : Word32) : Word32 :=
  operand

/-- The operand bits that are read, as a mask (R43's column of input bits; none for a reserved OP, R47). -/
def readMask : Instr → Word32
  | .bitparity _ | .matmul _ | .encode _ => 0x00000FFF#32
  | .popcount _ => 0xFFFFFFFF#32
  | .decode _ => 0x00FFFFFF#32
  | .reserved5 _ | .reserved6 _ | .reserved7 _ => 0#32

end Sys2Proof.Machine
end

