-- ==== Sys2Proof/Machine/Ops.lean ====
section
/-! DEFINITION. The named operations on State. The block has no memory and no registers (10_state.md R23, 20_memory.md R30),
so these are the operations of its interface: accepting a request, delivering a response, recording an illegal operation,
reset, and reading the response. There is no trap entry and no return from one (60_exceptions.md R73, R74); what the spec
describes in their place is `raiseIllegalOp`. -/

namespace Sys2Proof.Machine

/-- Accept a request: it joins the FIFO behind the others (70_reset_and_hazards.md R88). -/
def acceptRequest (w : Req) (s : State) : State :=
  { s with pending := s.pending ++ [w] }

/-- Deliver the response to a request: it is what RSP now carries, and the pair joins the observation (R88, R90). -/
def deliver (w : Req) (r : Response) (s : State) : State :=
  { s with rsp := some r, transcript := s.transcript ++ [(w, r)] }

/-- Record the fault IllegalOp of a request that is about to be answered (60_exceptions.md R71). -/
def recordIllegalOp (w : Req) (s : State) : State :=
  { s with faults := s.faults ++ [⟨s.transcript.length, reqOp w⟩] }

/-- The one exceptional response (R71): the fault is recorded, ILLEGAL = 1 and RESULT = 0 are delivered, nothing is
computed, and the block goes on. DEDUCED (safe): a recorded fault and a next state, not a stop; log entry 4. -/
def raiseIllegalOp (i : Instr) (s : State) : State :=
  deliver (encode i) illegalResponse (recordIllegalOp (encode i) s)

/-- The response of an operation that computed a value (R42, R46). -/
def respond {w : Nat} (i : Instr) (v : BitVec w) (s : State) : State :=
  deliver (encode i) (legalResponse v) s

/-- The reset input: requests in flight are discarded and RSP carries no value; the ROM is left alone (R82 to R85). The
observation of the run is the host's and stays. DEDUCED (safe); log entry 7. -/
def resetInput (s : State) : State :=
  { s with pending := [], rsp := none }

/-- Read RSP: the response last delivered, or a fault when none has been since reset (R84). DEDUCED (safe); log entry 6. -/
def readRsp (s : State) : Except Fault Response :=
  match s.rsp with
  | some r => .ok r
  | none => .error .noResponse

/-- The block's own progress: the oldest request is taken off the FIFO and decoded, to be run on the state without it
(R88). With no request the block is idle and nothing changes. DESIGN CHOICE (safe); log entry 3. -/
def serveTurn (s : State) : Turn :=
  match s.pending with
  | w :: rest => .run (decode w) { s with pending := rest }
  | [] => .settled (.next s)

/-- One event at the port. That loss of power has every effect of the reset input, RSP without a value included, is DEDUCED
(safe); log entry 18. -/
def eventTurn (e : PortEvent) (s : State) : Turn :=
  match e with
  | .accept w => .settled (.next (acceptRequest w s))
  | .serve => serveTurn s
  | .reset => .settled (.next (resetInput s))
  | .powerCycle => .settled (.next (resetInput s))
  | .readRsp =>
    match readRsp s with
    | .ok _ => .settled (.next s)
    | .error f => .settled (.fault f)

/-- What the next step does: the first event waiting at the port happens; with none waiting, the block serves its oldest
request. DESIGN CHOICE (safe); log entry 2. -/
def nextTurn (s : State) : Turn :=
  match s.port with
  | e :: rest => eventTurn e { s with port := rest }
  | [] => serveTurn s

/-- A request placed where the next step takes it from: at the head of the FIFO, with a `serve` event first at the port. -/
def placeRequest (w : Req) (s : State) : State :=
  { s with pending := w :: s.pending, port := .serve :: s.port }

end Sys2Proof.Machine
end

