-- ==== Sys2Proof/Machine/Codec.lean ====
section
/-! DEFINITION. The meanings of the two codec operations (41_codec.md). Neither has a flag or an exception; an uncorrectable
word is the value ERR_RESULT (R62, R70). -/

namespace Sys2Proof.Machine

/-- ENCODE (R58). -/
def execEncode (operand : Word32) (s : State) : Host.Outcome State Fault Refusal :=
  .next (respond (.encode operand) (encode24 s.rom (operand12 operand)) s)

/-- DECODE (R60, R61). Beyond 4 errors the value is still R60's (R68); log entry 12. -/
def execDecode (operand : Word32) (s : State) : Host.Outcome State Fault Refusal :=
  .next (respond (.decode operand) (decode24 s.rom (operand24 operand)) s)

end Sys2Proof.Machine
end

