-- ==== Sys2Proof/Machine/Primitives.lean ====
section
/-! DEFINITION. The meanings of the numeric primitives (40_primitives.md). None has a flag or an exception (R69). -/

namespace Sys2Proof.Machine

/-- BITPARITY (R51). -/
def execBitparity (operand : Word32) (s : State) : Host.Outcome State Fault Refusal :=
  .next (respond (.bitparity operand) (BitVec.ofBool (parity12 (operand12 operand))) s)

/-- POPCOUNT (R53). -/
def execPopcount (operand : Word32) (s : State) : Host.Outcome State Fault Refusal :=
  .next (respond (.popcount operand) (popcount32 (operand32 operand)) s)

/-- MATMUL (R54), over the machine's own matrix. -/
def execMatmul (operand : Word32) (s : State) : Host.Outcome State Fault Refusal :=
  .next (respond (.matmul operand) (matmul12 s.rom (operand12 operand)) s)

end Sys2Proof.Machine
end

