-- ==== Sys2Proof/Machine/Reserved.lean ====
section
/-! DEFINITION. The meanings of the three reserved OP values: the illegal-operation response (60_exceptions.md R71). Their
OPERAND is ignored (30_encoding.md R47). -/

namespace Sys2Proof.Machine

/-- OP 0b101 (R71). -/
def execReserved5 (operand : Word32) (s : State) : Host.Outcome State Fault Refusal :=
  .next (raiseIllegalOp (.reserved5 operand) s)

/-- OP 0b110 (R71). -/
def execReserved6 (operand : Word32) (s : State) : Host.Outcome State Fault Refusal :=
  .next (raiseIllegalOp (.reserved6 operand) s)

/-- OP 0b111 (R71). -/
def execReserved7 (operand : Word32) (s : State) : Host.Outcome State Fault Refusal :=
  .next (raiseIllegalOp (.reserved7 operand) s)

end Sys2Proof.Machine
end

