-- ==== Sys2Proof/Machine/Dispatch.lean ====
section
/-! DEFINITION. One arm per row of the opcode table (30_encoding.md R43). -/

namespace Sys2Proof.Machine

def exec (i : Instr) (s : State) : Host.Outcome State Fault Refusal :=
  match i with
  | .bitparity operand => Sys2Proof.Machine.execBitparity operand s
  | .popcount operand => Sys2Proof.Machine.execPopcount operand s
  | .matmul operand => Sys2Proof.Machine.execMatmul operand s
  | .encode operand => Sys2Proof.Machine.execEncode operand s
  | .decode operand => Sys2Proof.Machine.execDecode operand s
  | .reserved5 operand => Sys2Proof.Machine.execReserved5 operand s
  | .reserved6 operand => Sys2Proof.Machine.execReserved6 operand s
  | .reserved7 operand => Sys2Proof.Machine.execReserved7 operand s

end Sys2Proof.Machine
end

