-- ==== Sys2Proof/Machine/Step.lean ====
section
/-! DEFINITION. One step (70_reset_and_hazards.md R88). A transaction is one step, so it is atomic (20_memory.md R34). -/

namespace Sys2Proof.Machine

/-- Carry a turn out. -/
def runTurn : Turn → Host.Outcome State Fault Refusal
  | .run i s => exec i s
  | .settled outcome => outcome

/-- One step: the next event at the port, or the oldest request when no event waits. -/
def step (s : State) : Host.Outcome State Fault Refusal :=
  runTurn (nextTurn s)

/-- The block answers its oldest request, whatever waits at the port. Only host scripts use it, a DESIGN CHOICE; log entry 14. -/
def serveOldest (s : State) : Host.Outcome State Fault Refusal :=
  runTurn (serveTurn s)

/-- The state whose next step answers the request with bits `w`; log entry 8. A number that is no request changes nothing. -/
def State.withFetchWord (s : State) (nbits w : Nat) : State :=
  match requestOfNat nbits w with
  | .ok r => placeRequest r s
  | .error _ => s

end Sys2Proof.Machine
end

