-- ==== Sys2Proof/Machine/Assembler.lean ====
section
/-! DEFINITION. The assembler of 30_encoding.md R49: one request a line, `MNEMONIC operand` or `.req OP, operand`, and the
written form of a response. Text is a list of characters. The small points R49 leaves open are in log entry 13. -/

namespace Sys2Proof.Machine

/-- The value of one digit, of any base up to 16; hexadecimal digits in either letter case. -/
def digitValue (c : Char) : Option Nat :=
  let n := c.toNat
  if 48 ≤ n ∧ n ≤ 57 then some (n - 48)
  else if 97 ≤ n ∧ n ≤ 102 then some (n - 87)
  else if 65 ≤ n ∧ n ≤ 70 then some (n - 55)
  else none

/-- The digits of a literal in a base, onto the value so far. -/
def digitsValue (base : Nat) : List Char → Nat → Option Nat
  | [], acc => some acc
  | c :: cs, acc =>
    match digitValue c with
    | some d => if d < base then digitsValue base cs (acc * base + d) else none
    | none => none

/-- At least one digit. -/
def someDigits (base : Nat) (cs : List Char) : Option Nat :=
  if cs.isEmpty then none else digitsValue base cs 0

/-- An unsigned literal: `0x` hexadecimal, `0b` binary, or decimal (R49). -/
def parseLiteral : List Char → Option Nat
  | '0' :: 'x' :: cs => someDigits 16 cs
  | '0' :: 'b' :: cs => someDigits 2 cs
  | cs => someDigits 10 cs

/-- A capital letter's small letter; any other character itself. -/
def lowerCase (c : Char) : Char :=
  if 65 ≤ c.toNat ∧ c.toNat ≤ 90 then Char.ofNat (c.toNat + 32) else c

/-- A mnemonic in any letter case (R49). -/
def parseMnemonic (cs : List Char) : Option Mnemonic :=
  let low := cs.map lowerCase
  if low = ['b', 'i', 't', 'p', 'a', 'r', 'i', 't', 'y'] then some .bitparity
  else if low = ['p', 'o', 'p', 'c', 'o', 'u', 'n', 't'] then some .popcount
  else if low = ['m', 'a', 't', 'm', 'u', 'l'] then some .matmul
  else if low = ['e', 'n', 'c', 'o', 'd', 'e'] then some .encode
  else if low = ['d', 'e', 'c', 'o', 'd', 'e'] then some .decode
  else none

/-- A blank: a space or a tab. -/
def isBlank (c : Char) : Bool :=
  c == ' ' || c == '\t'

/-- The text without the blanks at its two ends. -/
def trimBlanks (cs : List Char) : List Char :=
  ((cs.dropWhile isBlank).reverse.dropWhile isBlank).reverse

/-- The operands after `.req`: OP, a comma, operand (R49). DESIGN CHOICE (safe), where R49 names the literal forms for the operand
only and writes OP as a decimal digit: OP may take the same three forms, decimal, `0x` and `0b`; log entry 13. -/
def parseRaw (cs : List Char) : Except AsmError Line :=
  match cs.span (· != ',') with
  | (codeText, _ :: operandText) =>
    match parseLiteral (trimBlanks codeText), parseLiteral (trimBlanks operandText) with
    | some code, some operand => .ok (.raw code operand)
    | _, _ => .error .notALiteral
  | (_, []) => .error .notALine

/-- One line of assembler text (R49). -/
def parseLine (cs : List Char) : Except AsmError Line :=
  match (trimBlanks cs).span (fun c => !isBlank c) with
  | ([], _) => .error .notALine
  | (_, []) => .error .notALine
  | (word, rest) =>
    if word = ['.', 'r', 'e', 'q'] then parseRaw rest
    else
      match parseMnemonic word, parseLiteral (trimBlanks rest) with
      | some m, some operand => .ok (.op m operand)
      | some _, none => .error .notALiteral
      | none, _ => .error .unknownMnemonic

/-- The request a mnemonic stands for (R43). -/
def mnemonicInstr (m : Mnemonic) (operand : Word32) : Instr :=
  match m with
  | .bitparity => .bitparity operand
  | .popcount => .popcount operand
  | .matmul => .matmul operand
  | .encode => .encode operand
  | .decode => .decode operand

/-- Whether an instruction's operand has bits set that it ignores (R45, R49). -/
def ignoredBitsSet (i : Instr) : Bool :=
  operandOf i &&& ~~~(readMask i) != 0#32

/-- Assemble a line: a literal above its field is refused, set ignored bits are accepted with a warning, and the raw form
writes any request (R49). -/
def assemble (line : Line) : Except AsmError Assembled :=
  match line with
  | .op m operand =>
    if operand < 2 ^ 32 then
      let i := mnemonicInstr m (BitVec.ofNat 32 operand)
      .ok ⟨encode i, ignoredBitsSet i⟩
    else .error .literalTooWide
  | .raw code operand =>
    if code < 2 ^ 3 then
      if operand < 2 ^ 32 then .ok ⟨requestWord (BitVec.ofNat 3 code) (BitVec.ofNat 32 operand), false⟩
      else .error .literalTooWide
    else .error .opTooWide

/-- Assemble a line of text (R49). -/
def assembleText (cs : List Char) : Except AsmError Assembled :=
  match parseLine cs with
  | .ok line => assemble line
  | .error e => .error e

/-- The written form of a response: `-> RESULT`, or `-> ILLEGAL` for an illegal request (R49). RESULT is written in
decimal; log entry 13. -/
def showResponse (r : Response) : List Char :=
  ['-', '>', ' '] ++
    if r.illegal then ['I', 'L', 'L', 'E', 'G', 'A', 'L'] else Nat.toDigits 10 r.result.toNat

end Sys2Proof.Machine
end

