-- ==== Sys2Proof/Machine/ScriptSyntax.lean ====
section
/-! DEFINITION. Host scripts (30_encoding.md R50) as syntax: the host's own computation between requests. They are not part
of the block; Machine/Script.lean says how one runs beside it. -/

namespace Sys2Proof.Machine

/-- A host expression over numbers (00_scope.md R10, R50). `<=` and `-` are the two further operators that program P2
of 95_test_vectors.md uses; log entry 14. -/
inductive Expr where
  | lit (n : Nat)
  | var (name : String)
  | xor (a b : Expr)
  | and (a b : Expr)
  | or (a b : Expr)
  | shiftLeft (a b : Expr)
  | eq (a b : Expr)
  | le (a b : Expr)
  | sub (a b : Expr)
deriving DecidableEq, Repr

/-- A host script (R50). Comments are not syntax. -/
inductive Script where
  /-- The empty script. -/
  | skip
  /-- One line after another. -/
  | seq (first second : Script)
  /-- `name = MNEMONIC operand-expr`. -/
  | issue (name : String) (mnemonic : Mnemonic) (operand : Expr)
  /-- `name = .req OP, operand-expr`. -/
  | raw (name : String) (code : Op) (operand : Expr)
  /-- `name = expr`. -/
  | assign (name : String) (value : Expr)
  /-- `if cond: ...`. That every number but 0 counts as true is a DESIGN CHOICE; log entry 14. -/
  | ifThen (cond : Expr) (body : Script)
  /-- `for k in a..b: ...`, both ends included, ascending. When a and b are read, and k after the loop, are DESIGN CHOICEs;
  log entry 14. -/
  | forIn (name : String) (first last : Expr) (body : Script)
  /-- `break`. -/
  | leave
deriving DecidableEq, Repr

/-- The host's variables, the latest binding first. -/
abbrev HostVars := List (String × Nat)

/-- A host beside its block. -/
structure HostState where
  vars : HostVars
  block : State
deriving DecidableEq, Repr

/-- Why a script stops early. Each is the script's error, not the block's; safe. -/
inductive ScriptError where
  /-- An expression names a variable that nothing has bound. -/
  | unbound (name : String)
  /-- An operand expression is above 2^32-1, which no OPERAND holds (R49). -/
  | operandTooWide
  /-- A `break` stands outside every `for`. -/
  | breakOutsideFor
  /-- The block stopped with a fault. -/
  | blockFault (f : Fault)
  /-- The block refused. -/
  | blockRefused (r : Refusal)
  /-- The block delivered no response. -/
  | noAnswer
deriving DecidableEq, Repr

/-- How a script line ended: on to the next, or leaving the innermost `for`. -/
inductive Flow where
  | onward
  | left
deriving DecidableEq, Repr

end Sys2Proof.Machine
end

