-- ==== Sys2Proof/Machine/Script.lean ====
section
/-! DEFINITION. Running a host script beside the block (30_encoding.md R50, 70_reset_and_hazards.md R87, R90). The host uses a
response only once it has been delivered (R88). The small points R50 leaves open are in log entry 14. -/

namespace Sys2Proof.Machine

/-- The value of a host expression; `==` and `<=` give 1 or 0. -/
def evalExpr (vars : HostVars) : Expr → Except ScriptError Nat
  | .lit n => .ok n
  | .var name =>
    match vars.lookup name with
    | some n => .ok n
    | none => .error (.unbound name)
  | .xor a b => do return (← evalExpr vars a) ^^^ (← evalExpr vars b)
  | .and a b => do return (← evalExpr vars a) &&& (← evalExpr vars b)
  | .or a b => do return (← evalExpr vars a) ||| (← evalExpr vars b)
  | .shiftLeft a b => do return (← evalExpr vars a) <<< (← evalExpr vars b)
  | .eq a b => do return if (← evalExpr vars a) = (← evalExpr vars b) then 1 else 0
  | .le a b => do return if (← evalExpr vars a) ≤ (← evalExpr vars b) then 1 else 0
  | .sub a b => do return (← evalExpr vars a) - (← evalExpr vars b)

/-- Let the block answer its oldest requests, that many times. -/
def serveMany : Nat → State → Except ScriptError State
  | 0, s => .ok s
  | k + 1, s =>
    match serveOldest s with
    | .next t => serveMany k t
    | .fault f => .error (.blockFault f)
    | .refused r => .error (.blockRefused r)

/-- Issue one request and wait for its response, which follows those of the requests before it (R88). DESIGN CHOICE (unsafe for a
claim about a script's run that crosses a reset), where R90 leaves open how a reset meets a script: the host lets the block
answer past every event that waits at the port and leaves it there, so a script never crosses a reset; log entry 14. -/
def transact (w : Req) (s : State) : Except ScriptError (State × Response) := do
  let t ← serveMany (s.pending.length + 1) (acceptRequest w s)
  match t.rsp with
  | some r => return (t, r)
  | none => .error .noAnswer

/-- Issue a request and bind its RESULT to a name; an illegal request binds 0 (R50). -/
def issueRequest (name : String) (w : Req) (h : HostState) : Except ScriptError HostState := do
  let (t, r) ← transact w h.block
  return ⟨(name, r.result.toNat) :: h.vars, t⟩

/-- An operand value as the 32-bit OPERAND it has to fit. -/
def operandWord (n : Nat) : Except ScriptError Word32 :=
  if n < 2 ^ 32 then .ok (BitVec.ofNat 32 n) else .error .operandTooWide

/-- A body run for each value of a list, until one leaves. DESIGN CHOICE (safe for the block, unsafe for a claim about a
script's own variables), where R50 is silent: the loop variable is bound before each pass, assigning it inside the body
changes no later pass, and its last value stays bound among the host's variables after the loop; log entry 14. -/
def forEach (name : String) (body : HostState → Except ScriptError (HostState × Flow)) :
    List Nat → HostState → Except ScriptError HostState
  | [], h => .ok h
  | k :: ks, h =>
    match body ⟨(name, k) :: h.vars, h.block⟩ with
    | .ok (h', .onward) => forEach name body ks h'
    | .ok (h', .left) => .ok h'
    | .error e => .error e

/-- Run a script (R50). DESIGN CHOICE (safe for the block, unsafe for a claim about a script's own variables), where R50 is
silent: in `if cond:` every number but 0 counts as true; the two bounds of a `for` are evaluated once, before its first pass,
and there is no pass when the first is above the last; log entry 14. -/
def runLines : Script → HostState → Except ScriptError (HostState × Flow)
  | .skip, h => .ok (h, .onward)
  | .seq first second, h =>
    match runLines first h with
    | .ok (h', .onward) => runLines second h'
    | .ok (h', .left) => .ok (h', .left)
    | .error e => .error e
  | .issue name m operand, h => do
    let x ← operandWord (← evalExpr h.vars operand)
    return (← issueRequest name (encode (mnemonicInstr m x)) h, .onward)
  | .raw name code operand, h => do
    let x ← operandWord (← evalExpr h.vars operand)
    return (← issueRequest name (requestWord code x) h, .onward)
  | .assign name value, h => do
    return (⟨(name, ← evalExpr h.vars value) :: h.vars, h.block⟩, .onward)
  | .ifThen cond body, h => do
    if (← evalExpr h.vars cond) = 0 then return (h, .onward) else runLines body h
  | .forIn name first last body, h => do
    let a ← evalExpr h.vars first
    let b ← evalExpr h.vars last
    return (← forEach name (runLines body) ((List.range (b + 1 - a)).map (a + ·)) h, .onward)
  | .leave, h => .ok (h, .left)

/-- Run a whole script from no variables; a `break` outside every `for` is an error. The run's observation is the block's
transcript with the host's variables (R90). No run of a script crosses a reset: DESIGN CHOICE (unsafe for a claim about one that does);
log entry 14. -/
def runScript (script : Script) (block : State) : Except ScriptError HostState :=
  match runLines script ⟨[], block⟩ with
  | .ok (h, .onward) => .ok h
  | .ok (_, .left) => .error .breakOutsideFor
  | .error e => .error e

end Sys2Proof.Machine
end

