-- ==== Sys2Proof/Safety.lean ====
section
/-! DEFINITION. The terms claims use: an answer, what a run observes and when it is over (70_reset_and_hazards.md R90), a run
without an illegal request (60_exceptions.md R71), and the invariant of the observation. -/

namespace Sys2Proof.Machine

/-- `i` run on `s` ends with the response `r` and nothing else: RSP is `r`, the pair joins the transcript, and the matrix, the
FIFO, the fault record and the port are as before. -/
def Answers (i : Instr) (s : State) (r : Response) : Prop :=
  exec i s = .next { s with rsp := some r, transcript := s.transcript ++ [(encode i, r)] }

/-- `i` run on `s` takes the illegal-operation response of R71: ILLEGAL = 1 and RESULT = 0, with the fault recorded under the
position of the request and its OP, and nothing else changed. -/
def AnswersIllegal (i : Instr) (s : State) : Prop :=
  exec i s = .next { s with
    rsp := some ⟨true, 0#32⟩
    transcript := s.transcript ++ [(encode i, ⟨true, 0#32⟩)]
    faults := s.faults ++ [⟨s.transcript.length, opOf i⟩] }

/-- The response the rules give a request under a matrix (20_memory.md R37), read off a run from an empty interface. -/
def responseOf (G : GenMatrix) (w : Req) : Option Response :=
  match exec (decode w) ⟨G, [], none, [], [], []⟩ with
  | .next t => t.rsp
  | .fault _ => none
  | .refused _ => none

/-- The fault record that a transcript calls for, positions counted from `from0`: one entry per response with ILLEGAL = 1
(R71, R90). -/
def illegalOpsFrom (from0 : Nat) : List (Req × Response) → List IllegalOp
  | [] => []
  | (w, r) :: rest =>
    if r.illegal then ⟨from0, reqOp w⟩ :: illegalOpsFrom (from0 + 1) rest else illegalOpsFrom (from0 + 1) rest

/-- The invariant of the observation: the matrix is admissible (R16), every response in the transcript is the one its own
request calls for (R37), the fault record is exactly the illegal requests (R71), and RSP, where it carries a value, is the
last response delivered (R84, R88). -/
structure State.Inv (s : State) : Prop where
  admissible : s.rom.Admissible
  responses : ∀ p ∈ s.transcript, responseOf s.rom p.1 = some p.2
  faults : s.faults = illegalOpsFrom 0 s.transcript
  rsp : ∀ r, s.rsp = some r → s.transcript.getLast?.map Prod.snd = some r

/-- Whether an event at the port is a request that the host has issued and the block has not accepted yet. -/
def PortEvent.isRequest : PortEvent → Bool
  | .accept _ => true
  | .serve | .reset | .powerCycle | .readRsp => false

/-- Every request the run issued has its response (R90). DESIGN CHOICE: a request still waiting at the port counts as issued,
and any other event waiting there does not keep the run from being over (safe); and a request that a reset discarded, of which
R90 says nothing, does not keep the run from being over either (unsafe for a claim that reads it as answered); log entry 20. -/
def State.runOver (s : State) : Bool :=
  s.pending.isEmpty && !s.port.any PortEvent.isRequest

/-- No response of the run had ILLEGAL = 1: the premise a claim about a host script takes (R71). -/
def State.noIllegalOp (s : State) : Bool :=
  s.faults.isEmpty

end Sys2Proof.Machine
end

