-- ==== Sys2Proof/Certificates/Slice0/Obligations.lean ====
section
/-! DEFINITION. The statements for the provers. `Answers i s r` says that exec answers the next state in which RSP is r, the
pair (request, r) has joined the transcript, and nothing else has changed; it is completion, result and frame in one. -/

open Sys2Proof Sys2Proof.Machine

/-! ### Encoding -/

/-- R41, R43, R47: for every instruction, each of them well formed, decoding its request word gives it back with its whole
operand, and every 35-bit word is the request word of the instruction it decodes to. -/
def Obligations.DecodeEncodeRoundTrip : Prop :=
  (∀ i : Instr, i.wellFormed = true ∧ decode (encode i) = i) ∧ (∀ w : Req, encode (decode w) = w)

/-- R43: every request word matches exactly one row of the opcode table, and it is the row of the instruction it decodes
to. -/
def Obligations.EveryRequestMatchesItsRowAlone : Prop :=
  ∀ w : Req, matchingRows w = [mnemonicOf (decode w)]

/-- R43, R47: words written out from the table decode to the instructions they stand for. -/
def Obligations.TableWordsDecode : Prop :=
  decode 0b000_00000000000000000000101010111100#35 = .bitparity 0xABC#32 ∧
  decode 0b001_00000000000100100011011001011111#35 = .popcount 0x0012365F#32 ∧
  decode 0b010_00000000000000001111000100100011#35 = .matmul 0xF123#32 ∧
  decode 0b011_00000000000000000000000100100011#35 = .encode 0x123#32 ∧
  decode 0b100_00000000100100100011011001011110#35 = .decode 0x92365E#32 ∧
  decode 0b101_00000000000000000000000000000000#35 = .reserved5 0#32 ∧
  decode 0b110_00000000000000000000000100100011#35 = .reserved6 0x123#32 ∧
  decode 0b111_11111111111111111111111111111111#35 = .reserved7 0xFFFFFFFF#32

/-- R42: bit 32 of the word RSP is ILLEGAL and bits 31..0 are RESULT, and the word loses nothing, in either direction. -/
def Obligations.ResponseWordRoundTrip : Prop :=
  (∀ r : Response, (responseWord r).getLsbD 32 = r.illegal ∧ (responseWord r).extractLsb' 0 32 = r.result) ∧
  (∀ r : Response, responseOfWord (responseWord r) = r) ∧ (∀ w : BitVec 33, responseWord (responseOfWord w) = w)

/-! ### The numeric primitives -/

/-- R51: the encoding, the XOR of the twelve bits, the parity of the weight, and the rule's corner cases and example. -/
def Obligations.BitparityAnswers : Prop :=
  ∀ (s : State) (x : Word32),
    encode (.bitparity x) = 0b000#3 ++ x ∧
    Answers (.bitparity x) s ⟨false, if x.getLsbD 0 ^^ x.getLsbD 1 ^^ x.getLsbD 2 ^^ x.getLsbD 3 ^^ x.getLsbD 4 ^^
      x.getLsbD 5 ^^ x.getLsbD 6 ^^ x.getLsbD 7 ^^ x.getLsbD 8 ^^ x.getLsbD 9 ^^ x.getLsbD 10 ^^ x.getLsbD 11
      then 1#32 else 0#32⟩ ∧
    Answers (.bitparity x) s ⟨false, BitVec.ofNat 32 (wt (x.extractLsb' 0 12) % 2)⟩ ∧
    Answers (.bitparity 0#32) s ⟨false, 0#32⟩ ∧
    Answers (.bitparity 0xFFF#32) s ⟨false, 0#32⟩ ∧
    Answers (.bitparity 0x1000#32) s ⟨false, 0#32⟩ ∧
    Answers (.bitparity 0xFFFFFFFF#32) s ⟨false, 0#32⟩ ∧
    Answers (.bitparity 0xABC#32) s ⟨false, 1#32⟩

/-- R52: folding the upper six bits onto the lower six keeps the parity, and BITPARITY is the lookup of the folded value in
the 64-entry table of parities. -/
def Obligations.ParityFoldingLaw : Prop :=
  (∀ x : Word12, wt x % 2 = wt (x.extractLsb' 6 6 ^^^ x.extractLsb' 0 6) % 2) ∧
  (∀ v : BitVec 6, parityTable[v.toNat]? = some (wt v % 2 == 1)) ∧
  (∀ (s : State) (x : Word32), Answers (.bitparity x) s
    ⟨false, if parityTable.getD (x.extractLsb' 6 6 ^^^ x.extractLsb' 0 6).toNat false then 1#32 else 0#32⟩)

/-- R53: the encoding, the exact number of set bits, its range, and the rule's corner cases and example. -/
def Obligations.PopcountAnswers : Prop :=
  ∀ (s : State) (x : Word32),
    encode (.popcount x) = 0b001#3 ++ x ∧
    Answers (.popcount x) s ⟨false, BitVec.ofNat 32 (((List.range 32).map fun k => (x.getLsbD k).toNat).sum)⟩ ∧
    wt x ≤ 32 ∧
    (∀ y : Word12, wt y ≤ 12) ∧
    Answers (.popcount 0#32) s ⟨false, 0#32⟩ ∧
    Answers (.popcount 0xFFFFFFFF#32) s ⟨false, 32#32⟩ ∧
    Answers (.popcount 0x80000000#32) s ⟨false, 1#32⟩ ∧
    Answers (.popcount 0x0012365F#32) s ⟨false, 12#32⟩

/-- R54: the encoding, every bit of the product, and the rule's corner cases and example. -/
def Obligations.MatmulAnswers : Prop :=
  ∀ (s : State) (x : Word32),
    encode (.matmul x) = 0b010#3 ++ x ∧
    (∃ y : Word12, Answers (.matmul x) s ⟨false, y.setWidth 32⟩ ∧
      (∀ i : Fin 12, y.getLsbD (11 - i.val) = decide (wt (x.extractLsb' 0 12 &&& s.rom.rows[i]) % 2 = 1)) ∧
      (s.rom.Admissible → Answers (.matmul (y.setWidth 32)) s ⟨false, (x.extractLsb' 0 12).setWidth 32⟩)) ∧
    Answers (.matmul 0#32) s ⟨false, 0#32⟩ ∧
    (s.rom.Admissible → Answers (.matmul 0xFFF#32) s ⟨false, 0xFFF#32⟩ ∧
      ∀ i : Fin 12, Answers (.matmul (1#32 <<< (11 - i.val))) s ⟨false, s.rom.rows[i].setWidth 32⟩) ∧
    (s.rom = refMatrix → Answers (.matmul 0x123#32) s ⟨false, 0x65F#32⟩ ∧ Answers (.matmul 0x65F#32) s ⟨false, 0x123#32⟩)

/-- R55: MATMUL is additive, takes 0 to 0, and depends on OPERAND[11:0] only. -/
def Obligations.MatmulIsLinear : Prop :=
  ∀ (s : State) (x z : Word32), ∃ a b : Word32,
    Answers (.matmul x) s ⟨false, a⟩ ∧ Answers (.matmul z) s ⟨false, b⟩ ∧
    Answers (.matmul (x ^^^ z)) s ⟨false, a ^^^ b⟩ ∧
    Answers (.matmul 0#32) s ⟨false, 0#32⟩ ∧
    Answers (.matmul (x &&& 0xFFF#32)) s ⟨false, a⟩

/-- R18, R56: under P2, MATMUL permutes the 12-bit values, and MATMUL of MATMUL's result gives the operand's low 12 bits
back. -/
def Obligations.MatmulIsItsOwnInverse : Prop :=
  ∀ s : State, s.rom.Involutive →
    Function.Bijective (matmul12 s.rom) ∧
    ∀ x : Word32, ∃ y : Word32, Answers (.matmul x) s ⟨false, y⟩ ∧ Answers (.matmul y) s ⟨false, x &&& 0xFFF#32⟩

/-- R57: the syndrome is 0 exactly on codewords, and depends on the error pattern only; so does `MATMUL(p) ^ d` under
P2. -/
def Obligations.SyndromeLaw : Prop :=
  ∀ G : GenMatrix,
    (∀ r : Word24, r = encode24 G (r.extractLsb' 12 12) ↔ r.extractLsb' 0 12 ^^^ matmul12 G (r.extractLsb' 12 12) = 0#12) ∧
    (∀ (m : Word12) (e : Word24), syndrome G (encode24 G m ^^^ e) = e.extractLsb' 0 12 ^^^ matmul12 G (e.extractLsb' 12 12)) ∧
    (G.Involutive → ∀ (m : Word12) (e : Word24),
      matmul12 G (parityHalf (encode24 G m ^^^ e)) ^^^ dataHalf (encode24 G m ^^^ e) =
        matmul12 G (e.extractLsb' 0 12) ^^^ e.extractLsb' 12 12)

/-! ### The matrix -/

/-- R18: P2 in the form MATMUL(MATMUL(x)) = x says the same as `A · A = I` over GF(2). -/
def Obligations.InvolutionIsMatrixSquare : Prop :=
  ∀ G : GenMatrix, G.Involutive ↔
    ∀ i j : Fin 12, (matrixIndices.filter fun k => G.entry i k && G.entry k j).length % 2 = if i = j then 1 else 0

/-- R20: under P1 and P2 every row has odd weight, MATMUL(0xFFF) = 0xFFF and ENCODE(0xFFF) = 0xFFFFFF. -/
def Obligations.RowsHaveOddWeight : Prop :=
  ∀ s : State, s.rom.Symmetric → s.rom.Involutive →
    (∀ i : Fin 12, wt s.rom.rows[i] % 2 = 1) ∧
    Answers (.matmul 0xFFF#32) s ⟨false, 0xFFF#32⟩ ∧
    Answers (.encode 0xFFF#32) s ⟨false, 0xFFFFFF#32⟩

/-- R21: under P1 MATMUL of a unit vector is a row, and under P1 and P2 the code is self-dual: any two codewords are
orthogonal, and a word that is orthogonal to every codeword is a codeword. -/
def Obligations.ColumnEqualsRow : Prop :=
  ∀ s : State, s.rom.Symmetric →
    (∀ i : Fin 12, Answers (.matmul (1#32 <<< (11 - i.val))) s ⟨false, s.rom.rows[i].setWidth 32⟩) ∧
    (s.rom.Involutive →
      (∀ a b : Word12, wt (encode24 s.rom a &&& encode24 s.rom b) % 2 = 0) ∧
      (∀ w : Word24, (∀ a : Word12, wt (w &&& encode24 s.rom a) % 2 = 0) → w = encode24 s.rom (w.extractLsb' 12 12)))

/-! ### The codec -/

/-- R58: the encoding, the message above its parity bits, and the rule's corner cases and example. -/
def Obligations.EncodeAnswers : Prop :=
  ∀ (s : State) (x : Word32),
    encode (.encode x) = 0b011#3 ++ x ∧
    (∃ y : Word12, Answers (.encode x) s ⟨false, (x.extractLsb' 0 12 ++ y).setWidth 32⟩ ∧
      ∀ i : Fin 12, y.getLsbD (11 - i.val) = decide (wt (x.extractLsb' 0 12 &&& s.rom.rows[i]) % 2 = 1)) ∧
    Answers (.encode 0#32) s ⟨false, 0#32⟩ ∧
    (∃ r : Response, Answers (.encode 0xFFF#32) s r ∧ Answers (.encode 0xFFFFFFFF#32) s r) ∧
    (s.rom.Admissible → Answers (.encode 0xFFF#32) s ⟨false, 0xFFFFFF#32⟩) ∧
    (s.rom = refMatrix → Answers (.encode 0x123#32) s ⟨false, 0x12365F#32⟩)

/-- R59: the six laws of ENCODE for an admissible matrix, and the weights under REF. -/
def Obligations.EncodeLaws : Prop :=
  ∀ s : State, s.rom.Admissible → ∃ cw : Word12 → Word24,
    (∀ x : Word32, Answers (.encode x) s ⟨false, (cw (x.extractLsb' 0 12)).setWidth 32⟩) ∧
    (∀ m, (cw m).extractLsb' 12 12 = m) ∧
    (∀ a b, cw (a ^^^ b) = cw a ^^^ cw b) ∧
    cw 0#12 = 0#24 ∧
    (∀ i : Fin 12, cw (1#12 <<< (11 - i.val)) = (1#24 <<< (23 - i.val)) ||| s.rom.rows[i].setWidth 24) ∧
    (∀ m, wt (cw m) % 2 = 0) ∧
    (∀ m, m ≠ 0#12 → 8 ≤ wt (cw m)) ∧
    (s.rom = refMatrix → cw 0x001#12 = 0x001FFE#24 ∧ ∀ m, wt (cw m) ∈ [0, 8, 12, 16, 24])

/-- R60, R61: with d and p the two halves, p2 = MATMUL(d) and d2 = MATMUL(p), the first condition that holds, in the order 2,
4, 5, 6 and with i ascending, decides the value; with none it is 0xFFFF. Then the rule's corner cases and example. -/
def Obligations.DecodeAnswersStepwise : Prop :=
  ∀ (s : State) (x : Word32) (d p p2 d2 : Word12),
    d = x.extractLsb' 12 12 → p = x.extractLsb' 0 12 → p2 = matmul12 s.rom d → d2 = matmul12 s.rom p →
    encode (.decode x) = 0b100#3 ++ x ∧
    (∃ v : BitVec 16, Answers (.decode x) s ⟨false, v.setWidth 32⟩ ∧
      (p2 = p ∨ wt (p ^^^ p2) ≤ 3 → v = d.setWidth 16) ∧
      (¬ (p2 = p ∨ wt (p ^^^ p2) ≤ 3) → wt (d2 ^^^ d) ≤ 3 → v = d2.setWidth 16) ∧
      (¬ (p2 = p ∨ wt (p ^^^ p2) ≤ 3) → ¬ wt (d2 ^^^ d) ≤ 3 → ∀ i : Fin 12, wt (p2 ^^^ s.rom.rows[i] ^^^ p) ≤ 2 →
        (∀ j : Fin 12, j < i → ¬ wt (p2 ^^^ s.rom.rows[j] ^^^ p) ≤ 2) → v = (d ^^^ 1#12 <<< (11 - i.val)).setWidth 16) ∧
      (¬ (p2 = p ∨ wt (p ^^^ p2) ≤ 3) → ¬ wt (d2 ^^^ d) ≤ 3 → (∀ i : Fin 12, ¬ wt (p2 ^^^ s.rom.rows[i] ^^^ p) ≤ 2) →
        ∀ i : Fin 12, wt (d2 ^^^ s.rom.rows[i] ^^^ d) ≤ 2 →
        (∀ j : Fin 12, j < i → ¬ wt (d2 ^^^ s.rom.rows[j] ^^^ d) ≤ 2) → v = (d2 ^^^ s.rom.rows[i]).setWidth 16) ∧
      (¬ (p2 = p ∨ wt (p ^^^ p2) ≤ 3) → ¬ wt (d2 ^^^ d) ≤ 3 → (∀ i : Fin 12, ¬ wt (p2 ^^^ s.rom.rows[i] ^^^ p) ≤ 2) →
        (∀ i : Fin 12, ¬ wt (d2 ^^^ s.rom.rows[i] ^^^ d) ≤ 2) → v = 0xFFFF#16)) ∧
    (s.rom.Admissible → ¬ (p2 = p ∨ wt (p ^^^ p2) ≤ 3) → ¬ wt (d2 ^^^ d) ≤ 3 →
      ∀ i : Fin 12, wt (p2 ^^^ s.rom.rows[i] ^^^ p) ≠ 0) ∧
    Answers (.decode 0#32) s ⟨false, 0#32⟩ ∧
    (s.rom.Admissible → Answers (.decode 0xFFFFFF#32) s ⟨false, 0xFFF#32⟩) ∧
    (∃ r : Response, Answers (.decode x) s r ∧ Answers (.decode (x &&& 0xFFFFFF#32)) s r) ∧
    (s.rom = refMatrix → Answers (.decode 0x92365E#32) s ⟨false, 0x123#32⟩)

/-- R62, R70: DECODE's value is 0xFFFF exactly when step 7 is reached, every other value is at most 0xFFF, and ILLEGAL is 0
either way. -/
def Obligations.ErrorResultOnlyFromStepSeven : Prop :=
  ∀ (s : State) (x : Word32), ∃ v : BitVec 16,
    Answers (.decode x) s ⟨false, v.setWidth 32⟩ ∧
    (v = 0xFFFF#16 ↔ decodeBranch s.rom (x.extractLsb' 0 24) = .step7) ∧
    (v ≠ 0xFFFF#16 → v.toNat ≤ 0xFFF)

/-- R63: under P1 and P2 a value that is not 0xFFFF is a message whose codeword is within distance 3 of the input. -/
def Obligations.DecodeIsSound : Prop :=
  ∀ s : State, s.rom.Symmetric → s.rom.Involutive → ∀ x : Word32, ∃ v : BitVec 16,
    Answers (.decode x) s ⟨false, v.setWidth 32⟩ ∧
    (v ≠ 0xFFFF#16 → ∃ m : Word12, v = m.setWidth 16 ∧ wt (x.extractLsb' 0 24 ^^^ encode24 s.rom m) ≤ 3)

/-- R64: for an admissible matrix DECODE gives the message of the one codeword within distance 3, and 0xFFFF where there is
none. -/
def Obligations.DecodeIsBoundedDistance : Prop :=
  ∀ s : State, s.rom.Admissible → ∀ x : Word32,
    (∀ m : Word12, wt (x.extractLsb' 0 24 ^^^ encode24 s.rom m) ≤ 3 →
      Answers (.decode x) s ⟨false, m.setWidth 32⟩ ∧
      ∀ m' : Word12, wt (x.extractLsb' 0 24 ^^^ encode24 s.rom m') ≤ 3 → m' = m) ∧
    ((∀ m : Word12, 3 < wt (x.extractLsb' 0 24 ^^^ encode24 s.rom m)) → Answers (.decode x) s ⟨false, 0xFFFF#32⟩)

/-- R64's table: which step decides, by the weights of the two halves of an error pattern of weight at most 3. -/
def Obligations.FirstStepThatFires : Prop :=
  ∀ G : GenMatrix, G.Admissible → ∀ (m : Word12) (e : Word24),
    (wt (e.extractLsb' 12 12) = 0 → wt (e.extractLsb' 0 12) ≤ 3 → decodeBranch G (encode24 G m ^^^ e) = .step2 m) ∧
    (1 ≤ wt (e.extractLsb' 12 12) → wt (e.extractLsb' 12 12) ≤ 3 → wt (e.extractLsb' 0 12) = 0 →
      decodeBranch G (encode24 G m ^^^ e) = .step4 m) ∧
    (wt (e.extractLsb' 12 12) = 1 → 1 ≤ wt (e.extractLsb' 0 12) → wt (e.extractLsb' 0 12) ≤ 2 →
      ∃ i : Fin 12, e.extractLsb' 12 12 = 1#12 <<< (11 - i.val) ∧ decodeBranch G (encode24 G m ^^^ e) = .step5 i m) ∧
    (wt (e.extractLsb' 12 12) = 2 → wt (e.extractLsb' 0 12) = 1 →
      ∃ i : Fin 12, e.extractLsb' 0 12 = 1#12 <<< (11 - i.val) ∧ decodeBranch G (encode24 G m ^^^ e) = .step6 i m)

/-- R65: for an admissible matrix, ENCODE of a message followed by DECODE gives the message back, with up to three bits
flipped in between, and that is never the sentinel. -/
def Obligations.CorrectsUpToThreeErrors : Prop :=
  ∀ s : State, s.rom.Admissible → ∀ m : Word12, ∃ cw : Word24,
    Answers (.encode (m.setWidth 32)) s ⟨false, cw.setWidth 32⟩ ∧
    Answers (.decode (cw.setWidth 32)) s ⟨false, m.setWidth 32⟩ ∧
    (∀ e : Word24, 1 ≤ wt e → wt e ≤ 3 → Answers (.decode ((cw ^^^ e).setWidth 32)) s ⟨false, m.setWidth 32⟩) ∧
    m.setWidth 32 ≠ 0xFFFF#32

/-- R66: for an admissible matrix four flipped bits are always detected. -/
def Obligations.DetectsFourErrors : Prop :=
  ∀ s : State, s.rom.Admissible → ∀ (m : Word12) (e : Word24), wt e = 4 →
    ∃ cw : Word24, Answers (.encode (m.setWidth 32)) s ⟨false, cw.setWidth 32⟩ ∧
      Answers (.decode ((cw ^^^ e).setWidth 32)) s ⟨false, 0xFFFF#32⟩

/-- R67: under P2 DECODE of a codeword with an error pattern is the message XOR DECODE of the pattern, or 0xFFFF with it. -/
def Obligations.TranslationLaw : Prop :=
  ∀ s : State, s.rom.Involutive → ∀ (m : Word12) (e : Word24), ∃ v : BitVec 16,
    Answers (.decode (e.setWidth 32)) s ⟨false, v.setWidth 32⟩ ∧
    (v = 0xFFFF#16 → Answers (.decode ((encode24 s.rom m ^^^ e).setWidth 32)) s ⟨false, 0xFFFF#32⟩) ∧
    (v ≠ 0xFFFF#16 →
      Answers (.decode ((encode24 s.rom m ^^^ e).setWidth 32)) s ⟨false, m.setWidth 32 ^^^ v.setWidth 32⟩)

/-- R68: the rule's example under REF, five flipped bits and a wrong message at step 2. -/
def Obligations.FiveErrorsGiveWrongMessage : Prop :=
  ∀ s : State, s.rom = refMatrix →
    Answers (.decode 0x800D80#32) s ⟨false, 0x800#32⟩ ∧
    decodeBranch s.rom 0x800D80#24 = .step2 0x800#12 ∧
    wt (0x800D80#24 ^^^ encode24 s.rom 0#12) = 5 ∧
    wt (0x800D80#24 ^^^ encode24 s.rom 0x800#12) = 3

/-! ### Every request -/

/-- R45, R47: operands that agree on the bits an operation reads get the same response, and a reserved opcode reads none. -/
def Obligations.IgnoredBitsHaveNoEffect : Prop :=
  ∀ (s : State) (x y : Word32),
    (x.extractLsb' 0 12 = y.extractLsb' 0 12 →
      (∃ r, Answers (.bitparity x) s r ∧ Answers (.bitparity y) s r) ∧
      (∃ r, Answers (.matmul x) s r ∧ Answers (.matmul y) s r) ∧
      (∃ r, Answers (.encode x) s r ∧ Answers (.encode y) s r)) ∧
    (x.extractLsb' 0 24 = y.extractLsb' 0 24 → ∃ r, Answers (.decode x) s r ∧ Answers (.decode y) s r) ∧
    (∀ i ∈ [Instr.reserved5 x, .reserved5 y, .reserved6 x, .reserved6 y, .reserved7 x, .reserved7 y],
      ∃ t, exec i s = .next t ∧ t.rsp = some ⟨true, 0#32⟩)

/-- R46: the bits of RESULT above an operation's result width are 0, and DECODE's value is a message or 0xFFFF. -/
def Obligations.ResultFitsItsWidth : Prop :=
  ∀ (s : State) (x : Word32),
    (∃ r, Answers (.bitparity x) s r ∧ r.result.toNat < 2 ^ 1) ∧
    (∃ r, Answers (.popcount x) s r ∧ r.result.toNat ≤ 32) ∧
    (∃ r, Answers (.matmul x) s r ∧ r.result.toNat < 2 ^ 12) ∧
    (∃ r, Answers (.encode x) s r ∧ r.result.toNat < 2 ^ 24) ∧
    (∃ r, Answers (.decode x) s r ∧ (r.result.toNat ≤ 4095 ∨ r.result.toNat = 0xFFFF))

/-- R69: each of the five operations completes on every operand in every state, with ILLEGAL = 0 and nothing recorded. -/
def Obligations.FiveOperationsAreTotal : Prop :=
  ∀ (s : State) (x : Word32) (i : Instr), i ∈ [.bitparity x, .popcount x, .matmul x, .encode x, .decode x] →
    ∃ v : Word32, Answers i s ⟨false, v⟩

/-- R71: a request with a reserved opcode gets exactly one response, ILLEGAL = 1 and RESULT = 0, whatever its operand; one fault
is recorded for it; the matrix, the requests behind it and the port are unchanged; and the next request is served normally. -/
def Obligations.ReservedOpcodesAnswerIllegal : Prop :=
  (∀ (s : State) (x : Word32) (i : Instr), i ∈ [Instr.reserved5 x, .reserved6 x, .reserved7 x] →
    ∃ (t : State) (f : IllegalOp), exec i s = .next t ∧ t.rsp = some ⟨true, 0#32⟩ ∧
      t.transcript = s.transcript ++ [(encode i, ⟨true, 0#32⟩)] ∧ t.faults = s.faults ++ [f] ∧ f.op = opOf i ∧
      t.rom = s.rom ∧ t.pending = s.pending ∧ t.port = s.port) ∧
  (∀ (s : State) (w v : Req) (rest : List Req), reqOp w ∈ [0b101#3, 0b110#3, 0b111#3] → s.port = [] →
    s.pending = w :: v :: rest →
    ∃ t, step s = .next t ∧ t.rsp = some ⟨true, 0#32⟩ ∧ t.rom = s.rom ∧ t.pending = v :: rest ∧
      step t = exec (decode v) { t with pending := rest })

/-- The whole next state of a reserved opcode, with the form of the fault record: the request's position in the run, and its OP.
That form is the model's choice, not a rule of the spec (log entry 5). The words of the three opcodes are R41's. -/
def Obligations.ReservedOpcodesNextState : Prop :=
  ∀ (s : State) (x : Word32),
    (AnswersIllegal (.reserved5 x) s ∧ encode (.reserved5 x) = 0b101#3 ++ x) ∧
    (AnswersIllegal (.reserved6 x) s ∧ encode (.reserved6 x) = 0b110#3 ++ x) ∧
    (AnswersIllegal (.reserved7 x) s ∧ encode (.reserved7 x) = 0b111#3 ++ x)

/-- R42, R72: every request has exactly one outcome, and its ILLEGAL bit is 1 exactly when its OP is reserved. -/
def Obligations.IllegalBitMeansReservedOpcode : Prop :=
  ∀ (s : State) (w : Req), ∃ (t : State) (r : Response),
    exec (decode w) s = .next t ∧ t.rsp = some r ∧ t.transcript = s.transcript ++ [(w, r)] ∧
    (r.illegal = true ↔ 5 ≤ (reqOp w).toNat) ∧
    (r.illegal = true → r.result = 0#32)

/-- R14, R23 to R28, R35: what any instruction leaves unchanged: the matrix, the requests waiting, the port, and the
transcript so far; and the fault record, but for the one entry of a reserved opcode, whose form is the model's choice (log
entry 5). -/
def Obligations.ExecFrame : Prop :=
  ∀ (i : Instr) (s t : State), exec i s = .next t →
    t.rom = s.rom ∧ t.pending = s.pending ∧ t.port = s.port ∧
    (∃ r, t.rsp = some r ∧ t.transcript = s.transcript ++ [(encode i, r)]) ∧
    ((opOf i).toNat < 5 → t.faults = s.faults) ∧
    (5 ≤ (opOf i).toNat → t.faults = s.faults ++ [⟨s.transcript.length, opOf i⟩])

/-- R37: the response to a request depends on the request and the matrix alone, so two states with the same matrix give
it the same response. -/
def Obligations.ResponseDependsOnRequestAndMatrixAlone : Prop :=
  ∀ (i : Instr) (s u : State), s.rom = u.rom → ∃ (t t' : State) (r : Response),
    exec i s = .next t ∧ exec i u = .next t' ∧ t.rsp = some r ∧ t'.rsp = some r ∧
    responseOf s.rom (encode i) = some r

/-! ### Steps -/

/-- R88: with a request w first in the FIFO, the step is exec of the instruction w decodes to, on the state without w. Two
clauses are the model's, not rules of the spec: that a step serves when the port is empty or has a `serve` event first, which
the step uses up (log entry 2, DESIGN CHOICE); and that the state which `withFetchWord` gives for a number that is a request
steps by exactly that request (log entries 8, DEDUCED, and 9, DESIGN CHOICE). -/
def Obligations.StepRunsDecodedRequest : Prop :=
  (∀ (s : State) (w : Req) (rest : List Req), s.pending = w :: rest →
    (s.port = [] → step s = exec (decode w) { s with pending := rest }) ∧
    (∀ es, s.port = .serve :: es → step s = exec (decode w) { s with pending := rest, port := es })) ∧
  (∀ (s : State) (nbits w : Nat) (r : Req), requestOfNat nbits w = .ok r →
    step (s.withFetchWord nbits w) = exec (decode r) s)

/-- R88: an accepted request joins the FIFO behind the others, and nothing else changes. -/
def Obligations.AcceptJoinsLast : Prop :=
  ∀ (s : State) (w : Req) (es : List PortEvent), s.port = .accept w :: es →
    step s = .next { s with pending := s.pending ++ [w], port := es }

/-- R82, R83, R85: the reset input discards the requests in flight and leaves RSP without a value; the matrix stays. Two things
are the model's reading, not rules of the spec: that what has been observed stays (log entry 7, DEDUCED); and that power removed
and restored has the same whole effect, RSP without a value included, where R81 speaks of the requests in flight only (log entry
18, DEDUCED). -/
def Obligations.ResetDiscardsRequestsInFlight : Prop :=
  ∀ (s : State) (es : List PortEvent), s.port = .reset :: es ∨ s.port = .powerCycle :: es →
    step s = .next { s with pending := [], rsp := none, port := es }

/-- R84: reset leaves RSP without a value; a host that reads RSP while it has none faults, whatever requests have been accepted
since; only a delivered response gives RSP a value; and after one the host reads that response, and the read changes nothing.
What a later read gives is the model's reading (log entry 6). -/
def Obligations.ReadBeforeFirstResponseFaults : Prop :=
  (∀ (s : State) (es : List PortEvent), s.port = .readRsp :: es → s.rsp = none → step s = .fault .noResponse) ∧
  (∀ s : State, (resetInput s).rsp = none) ∧
  (∀ s t : State, step s = .next t → s.rsp = none → t.transcript = s.transcript → t.rsp = none) ∧
  (∀ (s : State) (es : List PortEvent), s.port = .reset :: .readRsp :: es →
    ∃ t, step s = .next t ∧ step t = .fault .noResponse) ∧
  (∀ (s : State) (es : List PortEvent) (r : Response), s.port = .readRsp :: es → s.rsp = some r →
    step s = .next { s with port := es } ∧ readRsp s = .ok r)

/-- R82, R83, R86, R88: after reset there is nothing to set up. A request accepted right after reset is answered in the next step,
with the response its rules give it under the matrix that reset left. Two things are the model's, not rules of the spec: that
reset keeps the transcript, so that the pair joins the one before (log entry 7, DEDUCED); and the `accept` event at the port, and
that the step after it answers (log entry 2, DESIGN CHOICE). -/
def Obligations.FirstRequestAfterResetIsServed : Prop :=
  ∀ (s : State) (w : Req), ∃ (t : State) (r : Response),
    Host.Core.run core 2 { resetInput s with port := [.accept w] } = .next t ∧
    responseOf s.rom w = some r ∧ t.rsp = some r ∧ t.transcript = s.transcript ++ [(w, r)] ∧ t.pending = []

/-- The model's choice, not a rule of the spec (log entry 3): with no event at the port and no request waiting, a step changes
nothing. -/
def Obligations.IdleStepChangesNothing : Prop :=
  ∀ s : State, s.port = [] → s.pending = [] → step s = .next s

/-- R29: what reset leaves, with the matrix at GOLAY_MATRIX, which is admissible (R16), and RSP without a value, so that
reading it faults. That the lists of the observation and the port are empty is the model's (log entries 2 and 7). -/
def Obligations.ResetState : Prop :=
  State.reset.rom = Config.golayRom ∧ State.reset.rom.Admissible ∧ State.reset.pending = [] ∧
  State.reset.rsp = none ∧ readRsp State.reset = .error .noResponse ∧
  State.reset.transcript = [] ∧ State.reset.faults = [] ∧ State.reset.port = []

/-- R83, R14: the ROM holds GOLAY_MATRIX after reset, the reset input leaves it, and no step changes it, in any state. -/
def Obligations.RomNeverChanges : Prop :=
  State.reset.rom = Config.golayRom ∧
  (∀ s : State, (resetInput s).rom = s.rom) ∧
  (∀ s t : State, step s = .next t → t.rom = s.rom)

/-- R16, R37, R71, R84, R88: every step keeps the invariant of the observation. The matrix is admissible, every response in the
transcript is the one its own request calls for, the fault record is exactly the illegal requests (in the form of log entry
5), and RSP is the last response delivered (the reading of log entry 6). -/
def Obligations.StepKeepsInvariant : Prop :=
  ∀ s t : State, s.Inv → step s = .next t → t.Inv

/-- The invariant holds right after reset. -/
def Obligations.InvariantHoldsAtReset : Prop :=
  State.reset.Inv

/-- R71, R90: in a state that meets the invariant, no fault is recorded exactly when no response of the run had ILLEGAL = 1. -/
def Obligations.NoFaultMeansNoIllegalResponse : Prop :=
  ∀ s : State, s.Inv → (s.noIllegalOp = true ↔ ∀ p ∈ s.transcript, p.2.illegal = false)

/-- R88, R37: with no event at the port, as many steps as requests are waiting answer them all: one response each, in the order
they were accepted, each the one its request calls for. -/
def Obligations.EveryAcceptedRequestIsAnsweredInOrder : Prop :=
  ∀ s : State, s.port = [] → ∃ (t : State) (rs : List Response),
    Host.Core.run core s.pending.length s = .next t ∧
    t.pending = [] ∧ t.port = [] ∧ t.rom = s.rom ∧
    rs.length = s.pending.length ∧ t.transcript = s.transcript ++ s.pending.zip rs ∧
    ∀ p ∈ s.pending.zip rs, responseOf s.rom p.1 = some p.2

/-- R37: every order of executing a set of requests gives each request the same response. -/
def Obligations.AnyOrderGivesTheSameResponses : Prop :=
  ∀ s u : State, s.port = [] → u.port = [] → s.rom = u.rom → s.pending.Perm u.pending →
    ∃ (t t' : State) (ps qs : List (Req × Response)),
      Host.Core.run core s.pending.length s = .next t ∧ Host.Core.run core u.pending.length u = .next t' ∧
      t.transcript = s.transcript ++ ps ∧ t'.transcript = u.transcript ++ qs ∧
      ps.map Prod.fst = s.pending ∧ qs.map Prod.fst = u.pending ∧ ps.Perm qs

/-! ### The assembler and the host -/

/-- R49, with the words of R41 and R43 and the ignored bits of R44: a mnemonic line gives the mnemonic's request with the operand
zero-extended, and warns exactly when a bit that the operation ignores is set; a literal above 2^32-1 is refused in either form;
and the raw form writes every 35-bit request. That the raw form gives no warning, that it refuses an OP above 7, and the names
of the refusals are the model's choice (log entry 13). -/
def Obligations.AssemblerWritesRequests : Prop :=
  (∀ n : Nat, n < 2 ^ 32 →
    assemble (.op .bitparity n) = .ok ⟨0b000#3 ++ BitVec.ofNat 32 n, decide (2 ^ 12 ≤ n)⟩ ∧
    assemble (.op .popcount n) = .ok ⟨0b001#3 ++ BitVec.ofNat 32 n, false⟩ ∧
    assemble (.op .matmul n) = .ok ⟨0b010#3 ++ BitVec.ofNat 32 n, decide (2 ^ 12 ≤ n)⟩ ∧
    assemble (.op .encode n) = .ok ⟨0b011#3 ++ BitVec.ofNat 32 n, decide (2 ^ 12 ≤ n)⟩ ∧
    assemble (.op .decode n) = .ok ⟨0b100#3 ++ BitVec.ofNat 32 n, decide (2 ^ 24 ≤ n)⟩) ∧
  (∀ (m : Mnemonic) (n : Nat), 2 ^ 32 ≤ n → assemble (.op m n) = .error .literalTooWide) ∧
  (∀ code n : Nat, code < 8 → n < 2 ^ 32 →
    assemble (.raw code n) = .ok ⟨BitVec.ofNat 3 code ++ BitVec.ofNat 32 n, false⟩) ∧
  (∀ code n : Nat, code < 8 → 2 ^ 32 ≤ n → assemble (.raw code n) = .error .literalTooWide) ∧
  (∀ code n : Nat, 8 ≤ code → assemble (.raw code n) = .error .opTooWide) ∧
  (∀ w : Req, ∃ code n : Nat, assemble (.raw code n) = .ok ⟨w, false⟩)

/-- R50, R87, R88: a host that issues one request and waits for its response gets the one the request calls for, after those
of the requests before it. That the events waiting at the port, a reset among them, are passed by meanwhile is the model's
choice, not a rule of the spec (log entry 14). -/
def Obligations.HostReceivesTheResponseOfItsRequest : Prop :=
  ∀ (s : State) (w : Req), ∃ (t : State) (r : Response) (earlier : List (Req × Response)),
    transact w s = .ok (t, r) ∧ responseOf s.rom w = some r ∧
    earlier.map Prod.fst = s.pending ∧ t.transcript = s.transcript ++ earlier ++ [(w, r)] ∧ t.pending = []
end

