-- ==== Sys2Proof/Laws/Decoder.lean ====
section
/-! SUPPORT. Everything `decodeBranch` can answer, with the condition that decides each branch (41_codec.md R60, R61). -/

namespace Sys2Proof.Laws

open Sys2Proof.Machine

/-- Every matrix index is in the list of indices. -/
theorem mem_matrixIndices (i : Fin 12) : i ∈ matrixIndices := by
  revert i; decide

/-- A search over data bits ends at an index that meets step 5's condition, or no index does. -/
theorem searchData_cases (G : GenMatrix) (d p p2 : Word12) :
    (∃ i, wt (p2 ^^^ matrixRow G i ^^^ p) ≤ 2 ∧ searchData G d p p2 = some (.step5 i (d ^^^ unitMsb i))) ∨
      (searchData G d p p2 = none ∧ ∀ i, ¬ wt (p2 ^^^ matrixRow G i ^^^ p) ≤ 2) := by
  cases h : searchData G d p p2 with
  | none =>
    refine .inr ⟨rfl, fun i hi => ?_⟩
    have := List.findSome?_eq_none_iff.mp h i (mem_matrixIndices i)
    simp [hi] at this
  | some b =>
    obtain ⟨i, -, hi⟩ := List.exists_of_findSome?_eq_some h
    by_cases hw : wt (p2 ^^^ matrixRow G i ^^^ p) ≤ 2
    · simp [hw] at hi
      exact .inl ⟨i, hw, by rw [hi]⟩
    · simp [hw] at hi

/-- A search over parity bits ends at an index that meets step 6's condition, or no index does. -/
theorem searchParity_cases (G : GenMatrix) (d d2 : Word12) :
    (∃ i, wt (d2 ^^^ matrixRow G i ^^^ d) ≤ 2 ∧ searchParity G d d2 = some (.step6 i (d2 ^^^ matrixRow G i))) ∨
      (searchParity G d d2 = none ∧ ∀ i, ¬ wt (d2 ^^^ matrixRow G i ^^^ d) ≤ 2) := by
  cases h : searchParity G d d2 with
  | none =>
    refine .inr ⟨rfl, fun i hi => ?_⟩
    have := List.findSome?_eq_none_iff.mp h i (mem_matrixIndices i)
    simp [hi] at this
  | some b =>
    obtain ⟨i, -, hi⟩ := List.exists_of_findSome?_eq_some h
    by_cases hw : wt (d2 ^^^ matrixRow G i ^^^ d) ≤ 2
    · simp [hw] at hi
      exact .inl ⟨i, hw, by rw [hi]⟩
    · simp [hw] at hi

/-- The decision of DECODE, by the condition that holds first. -/
theorem decodeBranch_cases (G : GenMatrix) (c : Word24) {d p p2 d2 : Word12} (hd : d = dataHalf c) (hp : p = parityHalf c)
    (hp2 : p2 = matmul12 G d) (hd2 : d2 = matmul12 G p) :
    (decodeBranch G c = .step2 d ∧ (p2 = p ∨ wt (p ^^^ p2) ≤ 3)) ∨
    (¬ (p2 = p ∨ wt (p ^^^ p2) ≤ 3) ∧
      ((decodeBranch G c = .step4 d2 ∧ wt (d2 ^^^ d) ≤ 3) ∨
      (¬ wt (d2 ^^^ d) ≤ 3 ∧
        ((∃ i, decodeBranch G c = .step5 i (d ^^^ unitMsb i) ∧ wt (p2 ^^^ matrixRow G i ^^^ p) ≤ 2) ∨
        ((∀ i, ¬ wt (p2 ^^^ matrixRow G i ^^^ p) ≤ 2) ∧
          ((∃ i, decodeBranch G c = .step6 i (d2 ^^^ matrixRow G i) ∧ wt (d2 ^^^ matrixRow G i ^^^ d) ≤ 2) ∨
          (decodeBranch G c = .step7 ∧ ∀ i, ¬ wt (d2 ^^^ matrixRow G i ^^^ d) ≤ 2))))))) := by
  subst hd hp hp2 hd2
  unfold decodeBranch
  by_cases h2 : matmul12 G (dataHalf c) = parityHalf c ∨ wt (parityHalf c ^^^ matmul12 G (dataHalf c)) ≤ 3
  · exact .inl ⟨by simp [h2], h2⟩
  refine .inr ⟨h2, ?_⟩
  by_cases h4 : wt (matmul12 G (parityHalf c) ^^^ dataHalf c) ≤ 3
  · exact .inl ⟨by simp [h2, h4], h4⟩
  refine .inr ⟨h4, ?_⟩
  simp only [if_neg h2, if_neg h4]
  rcases searchData_cases G (dataHalf c) (parityHalf c) (matmul12 G (dataHalf c)) with ⟨i, hi, hs⟩ | ⟨hs, hn⟩
  · exact .inl ⟨i, by simp [hs], hi⟩
  refine .inr ⟨hn, ?_⟩
  rcases searchParity_cases G (dataHalf c) (matmul12 G (parityHalf c)) with ⟨i, hi, ht⟩ | ⟨ht, hm⟩
  · exact .inl ⟨i, by simp [hs, ht], hi⟩
  · exact .inr ⟨by simp [hs, ht], hm⟩

end Sys2Proof.Laws
end

