-- ==== Sys2Proof/Laws/Encoding.lean ====
section
/-! SUPPORT. The fields of a request word (30_encoding.md R41). -/

namespace Sys2Proof.Laws

/-- The OP field of a word put together from its fields. -/
theorem reqOp_requestWord (code : Op) (operand : Word32) : reqOp (requestWord code operand) = code := by
  apply BitVec.eq_of_getLsbD_eq
  intro k hk
  simp only [reqOp, requestWord, BitVec.getLsbD_extractLsb', BitVec.getLsbD_append]
  simp [hk]

/-- The OPERAND field of a word put together from its fields. -/
theorem reqOperand_requestWord (code : Op) (operand : Word32) : reqOperand (requestWord code operand) = operand := by
  apply BitVec.eq_of_getLsbD_eq
  intro k hk
  simp only [reqOperand, requestWord, BitVec.getLsbD_extractLsb', BitVec.getLsbD_append]
  simp [hk]

/-- A request word is its two fields. -/
theorem requestWord_fields (w : Req) : requestWord (reqOp w) (reqOperand w) = w := by
  apply BitVec.eq_of_getLsbD_eq
  intro k hk
  simp only [reqOp, reqOperand, requestWord, BitVec.getLsbD_append, BitVec.getLsbD_extractLsb']
  by_cases h : k < 32
  · simp [h]
  · simp [h, show k - 32 < 3 by omega, show 32 + (k - 32) = k by omega]

/-- What `decode` can give, by the OP field: the row with that OP and the word's own operand. -/
theorem opOf_decode (w : Req) : opOf (decode w) = reqOp w ∧ operandOf (decode w) = reqOperand w := by
  have key : ∀ f : Fin 8, reqOp w = BitVec.ofFin f → opOf (decode w) = reqOp w ∧ operandOf (decode w) = reqOperand w := by
    intro f hf
    unfold decode
    rw [hf]
    fin_cases f <;> exact ⟨rfl, rfl⟩
  exact key (reqOp w).toFin rfl

end Sys2Proof.Laws
end

