-- ==== Sys2Proof/Laws/State.lean ====
section
/-! SUPPORT. Each field of State after each operation of Machine/Ops.lean, so that no later proof unfolds a record update. -/

namespace Sys2Proof.Laws

open Sys2Proof.Machine

@[simp] theorem acceptRequest_rom (w : Req) (s : State) : (acceptRequest w s).rom = s.rom := rfl
@[simp] theorem acceptRequest_pending (w : Req) (s : State) : (acceptRequest w s).pending = s.pending ++ [w] := rfl
@[simp] theorem acceptRequest_rsp (w : Req) (s : State) : (acceptRequest w s).rsp = s.rsp := rfl
@[simp] theorem acceptRequest_transcript (w : Req) (s : State) : (acceptRequest w s).transcript = s.transcript := rfl
@[simp] theorem acceptRequest_faults (w : Req) (s : State) : (acceptRequest w s).faults = s.faults := rfl
@[simp] theorem acceptRequest_port (w : Req) (s : State) : (acceptRequest w s).port = s.port := rfl

@[simp] theorem deliver_rom (w : Req) (r : Response) (s : State) : (deliver w r s).rom = s.rom := rfl
@[simp] theorem deliver_pending (w : Req) (r : Response) (s : State) : (deliver w r s).pending = s.pending := rfl
@[simp] theorem deliver_rsp (w : Req) (r : Response) (s : State) : (deliver w r s).rsp = some r := rfl
@[simp] theorem deliver_transcript (w : Req) (r : Response) (s : State) : (deliver w r s).transcript = s.transcript ++ [(w, r)] := rfl
@[simp] theorem deliver_faults (w : Req) (r : Response) (s : State) : (deliver w r s).faults = s.faults := rfl
@[simp] theorem deliver_port (w : Req) (r : Response) (s : State) : (deliver w r s).port = s.port := rfl

@[simp] theorem recordIllegalOp_rom (w : Req) (s : State) : (recordIllegalOp w s).rom = s.rom := rfl
@[simp] theorem recordIllegalOp_pending (w : Req) (s : State) : (recordIllegalOp w s).pending = s.pending := rfl
@[simp] theorem recordIllegalOp_rsp (w : Req) (s : State) : (recordIllegalOp w s).rsp = s.rsp := rfl
@[simp] theorem recordIllegalOp_transcript (w : Req) (s : State) : (recordIllegalOp w s).transcript = s.transcript := rfl
@[simp] theorem recordIllegalOp_faults (w : Req) (s : State) : (recordIllegalOp w s).faults = s.faults ++ [⟨s.transcript.length, reqOp w⟩] := rfl
@[simp] theorem recordIllegalOp_port (w : Req) (s : State) : (recordIllegalOp w s).port = s.port := rfl

@[simp] theorem raiseIllegalOp_rom (i : Instr) (s : State) : (raiseIllegalOp i s).rom = s.rom := rfl
@[simp] theorem raiseIllegalOp_pending (i : Instr) (s : State) : (raiseIllegalOp i s).pending = s.pending := rfl
@[simp] theorem raiseIllegalOp_rsp (i : Instr) (s : State) : (raiseIllegalOp i s).rsp = some illegalResponse := rfl
@[simp] theorem raiseIllegalOp_transcript (i : Instr) (s : State) : (raiseIllegalOp i s).transcript = s.transcript ++ [(encode i, illegalResponse)] := rfl
@[simp] theorem raiseIllegalOp_faults (i : Instr) (s : State) : (raiseIllegalOp i s).faults = s.faults ++ [⟨s.transcript.length, reqOp (encode i)⟩] := rfl
@[simp] theorem raiseIllegalOp_port (i : Instr) (s : State) : (raiseIllegalOp i s).port = s.port := rfl

@[simp] theorem respond_rom {w : Nat} (i : Instr) (v : BitVec w) (s : State) : (respond i v s).rom = s.rom := rfl
@[simp] theorem respond_pending {w : Nat} (i : Instr) (v : BitVec w) (s : State) : (respond i v s).pending = s.pending := rfl
@[simp] theorem respond_rsp {w : Nat} (i : Instr) (v : BitVec w) (s : State) : (respond i v s).rsp = some (legalResponse v) := rfl
@[simp] theorem respond_transcript {w : Nat} (i : Instr) (v : BitVec w) (s : State) : (respond i v s).transcript = s.transcript ++ [(encode i, legalResponse v)] := rfl
@[simp] theorem respond_faults {w : Nat} (i : Instr) (v : BitVec w) (s : State) : (respond i v s).faults = s.faults := rfl
@[simp] theorem respond_port {w : Nat} (i : Instr) (v : BitVec w) (s : State) : (respond i v s).port = s.port := rfl

@[simp] theorem resetInput_rom (s : State) : (resetInput s).rom = s.rom := rfl
@[simp] theorem resetInput_pending (s : State) : (resetInput s).pending = [] := rfl
@[simp] theorem resetInput_rsp (s : State) : (resetInput s).rsp = none := rfl
@[simp] theorem resetInput_transcript (s : State) : (resetInput s).transcript = s.transcript := rfl
@[simp] theorem resetInput_faults (s : State) : (resetInput s).faults = s.faults := rfl
@[simp] theorem resetInput_port (s : State) : (resetInput s).port = s.port := rfl

@[simp] theorem placeRequest_rom (w : Req) (s : State) : (placeRequest w s).rom = s.rom := rfl
@[simp] theorem placeRequest_pending (w : Req) (s : State) : (placeRequest w s).pending = w :: s.pending := rfl
@[simp] theorem placeRequest_rsp (w : Req) (s : State) : (placeRequest w s).rsp = s.rsp := rfl
@[simp] theorem placeRequest_transcript (w : Req) (s : State) : (placeRequest w s).transcript = s.transcript := rfl
@[simp] theorem placeRequest_faults (w : Req) (s : State) : (placeRequest w s).faults = s.faults := rfl
@[simp] theorem placeRequest_port (w : Req) (s : State) : (placeRequest w s).port = .serve :: s.port := rfl

end Sys2Proof.Laws
end

