-- ==== Sys2Proof/Laws/Ops.lean ====
section
/-! SUPPORT. What an instruction, a turn and a step can do, said once. -/

namespace Sys2Proof.Laws

open Sys2Proof.Machine

/-- The two shapes of a meaning: a legal response is delivered, or the illegal-operation response is. -/
theorem exec_cases (i : Instr) (s : State) :
    (∃ r : Response, r.illegal = false ∧ exec i s = .next (deliver (encode i) r s)) ∨
      exec i s = .next (raiseIllegalOp i s) := by
  cases i with
  | bitparity x => exact .inl ⟨_, rfl, rfl⟩
  | popcount x => exact .inl ⟨_, rfl, rfl⟩
  | matmul x => exact .inl ⟨_, rfl, rfl⟩
  | encode x => exact .inl ⟨_, rfl, rfl⟩
  | decode x => exact .inl ⟨_, rfl, rfl⟩
  | reserved5 x => exact .inr rfl
  | reserved6 x => exact .inr rfl
  | reserved7 x => exact .inr rfl

/-- Reading RSP gives the response last delivered, or the fault. -/
theorem readRsp_cases (s : State) :
    (∃ r, s.rsp = some r ∧ readRsp s = .ok r) ∨ (s.rsp = none ∧ readRsp s = .error .noResponse) := by
  cases h : s.rsp with
  | none => exact .inr ⟨rfl, by simp [readRsp, h]⟩
  | some r => exact .inl ⟨r, rfl, by simp [readRsp, h]⟩

/-- Serving with a request waiting runs it. -/
theorem serveTurn_of_cons {s : State} {w : Req} {rest : List Req} (h : s.pending = w :: rest) :
    serveTurn s = .run (decode w) { s with pending := rest } := by
  simp [serveTurn, h]

/-- Serving with no request waiting changes nothing. -/
theorem serveTurn_of_nil {s : State} (h : s.pending = []) : serveTurn s = .settled (.next s) := by
  simp [serveTurn, h]

/-- With no event waiting, a turn serves. -/
theorem nextTurn_of_nil {s : State} (h : s.port = []) : nextTurn s = serveTurn s := by
  simp [nextTurn, h]

/-- With an event waiting, a turn is that event. -/
theorem nextTurn_of_cons {s : State} {e : PortEvent} {es : List PortEvent} (h : s.port = e :: es) :
    nextTurn s = eventTurn e { s with port := es } := by
  simp [nextTurn, h]

/-- Every way a turn can serve. -/
theorem serve_cases {s t : State} (h : runTurn (serveTurn s) = .next t) :
    t = s ∨ ∃ w rest, s.pending = w :: rest ∧ exec (decode w) { s with pending := rest } = .next t := by
  cases hp : s.pending with
  | nil =>
    rw [serveTurn_of_nil hp] at h
    exact .inl (by injection h with h; exact h.symm)
  | cons w rest =>
    rw [serveTurn_of_cons hp] at h
    exact .inr ⟨w, rest, rfl, h⟩

/-- Every way a step can reach a next state. -/
theorem step_cases {s t : State} (h : step s = .next t) :
    (∃ u, (u = s ∨ ∃ es, s.port = .serve :: es ∧ u = { s with port := es }) ∧
      (t = u ∨ ∃ w rest, u.pending = w :: rest ∧ exec (decode w) { u with pending := rest } = .next t)) ∨
    (∃ w es, s.port = .accept w :: es ∧ t = acceptRequest w { s with port := es }) ∨
    (∃ e es, s.port = e :: es ∧ (e = .reset ∨ e = .powerCycle) ∧ t = resetInput { s with port := es }) ∨
    (∃ es r, s.port = .readRsp :: es ∧ s.rsp = some r ∧ t = { s with port := es }) := by
  unfold step at h
  cases hp : s.port with
  | nil =>
    rw [nextTurn_of_nil hp] at h
    exact .inl ⟨s, .inl rfl, serve_cases h⟩
  | cons e es =>
    rw [nextTurn_of_cons hp] at h
    cases e with
    | accept w => exact .inr (.inl ⟨w, es, rfl, by injection h with h; exact h.symm⟩)
    | serve => exact .inl ⟨_, .inr ⟨es, rfl, rfl⟩, serve_cases h⟩
    | reset => exact .inr (.inr (.inl ⟨_, es, rfl, .inl rfl, by injection h with h; exact h.symm⟩))
    | powerCycle => exact .inr (.inr (.inl ⟨_, es, rfl, .inr rfl, by injection h with h; exact h.symm⟩))
    | readRsp =>
      cases hr : s.rsp with
      | none => simp [eventTurn, readRsp, hr, runTurn] at h
      | some r =>
        simp [eventTurn, readRsp, hr, runTurn] at h
        exact .inr (.inr (.inr ⟨es, r, rfl, rfl, h.symm⟩))

end Sys2Proof.Laws
end

