-- ==== Sys2Proof/Laws/PerInstr.lean ====
section
/-! SUPPORT. One statement per instruction, about its encoding: its request word is the row of spec/opcode_table.json that
bears its mnemonic, and its OPERAND field is its operand (30_encoding.md R41, R43). -/

namespace Sys2Proof.Laws.EncodesAsTable

/-- The word of `i` has the row's match under the row's mask, and carries the whole operand. -/
def Statement (i : Instr) : Prop :=
  (⟨mnemonicOf i, encode i &&& 0x700000000#35, 0x700000000#35⟩ : OpcodeRow) ∈ opcodeTable ∧
    reqOperand (encode i) = operandOf i

/-- The OP bits of a word, under the table's mask. -/
theorem masked_requestWord (code : Op) (operand : Word32) :
    requestWord code operand &&& 0x700000000#35 = requestWord code 0#32 := by
  apply BitVec.eq_of_getLsbD_eq
  intro k hk
  have mask : ∀ k < 35, (0x700000000#35).getLsbD k = decide (32 ≤ k) := by decide
  simp only [requestWord, BitVec.getLsbD_and, BitVec.getLsbD_append, mask k hk]
  by_cases h : k < 32
  · simp [h, show ¬ 32 ≤ k by omega]
  · simp [h, show 32 ≤ k by omega]

/-- A row with the instruction's mnemonic and OP gives its statement. -/
theorem of_row {i : Instr} {name : String} {code : Op} (hn : mnemonicOf i = name) (hc : opOf i = code)
    (h : (⟨name, requestWord code 0#32, 0x700000000#35⟩ : OpcodeRow) ∈ opcodeTable) : Statement i := by
  subst hn hc
  exact ⟨by rw [Sys2Proof.encode, masked_requestWord]; exact h, reqOperand_requestWord ..⟩

theorem bitparity (operand : Word32) : Statement (.bitparity operand) :=
  of_row (name := "BITPARITY") (code := 0#3) rfl rfl (by decide)

theorem popcount (operand : Word32) : Statement (.popcount operand) :=
  of_row (name := "POPCOUNT") (code := 1#3) rfl rfl (by decide)

theorem matmul (operand : Word32) : Statement (.matmul operand) :=
  of_row (name := "MATMUL") (code := 2#3) rfl rfl (by decide)

theorem encode (operand : Word32) : Statement (.encode operand) :=
  of_row (name := "ENCODE") (code := 3#3) rfl rfl (by decide)

theorem decode (operand : Word32) : Statement (.decode operand) :=
  of_row (name := "DECODE") (code := 4#3) rfl rfl (by decide)

theorem reserved5 (operand : Word32) : Statement (.reserved5 operand) :=
  of_row (name := "RESERVED_5") (code := 5#3) rfl rfl (by decide)

theorem reserved6 (operand : Word32) : Statement (.reserved6 operand) :=
  of_row (name := "RESERVED_6") (code := 6#3) rfl rfl (by decide)

theorem reserved7 (operand : Word32) : Statement (.reserved7 operand) :=
  of_row (name := "RESERVED_7") (code := 7#3) rfl rfl (by decide)

end Sys2Proof.Laws.EncodesAsTable
end

