-- ==== Sys2Proof/Laws/Weight.lean ====
section
/-! SUPPORT. The weight of a word (00_scope.md R10): bounds, concatenation, the triangle law, and parity. -/

namespace Sys2Proof.Laws

open Sys2Proof.Machine

/-- The weight as a count of set positions. -/
theorem wt_eq_countP {n : Nat} (v : BitVec n) : wt v = (List.range n).countP v.getLsbD := by
  unfold wt
  generalize List.range n = l
  induction l with
  | nil => rfl
  | cons k l ih => cases h : v.getLsbD k <;> simp [ih, h, Nat.add_comm]

/-- No word weighs more than its width. -/
theorem wt_le_width {n : Nat} (v : BitVec n) : wt v ≤ n := by
  rw [wt_eq_countP]
  simpa using List.countP_le_length (p := v.getLsbD) (l := List.range n)

/-- Only the zero word has weight 0. -/
theorem wt_eq_zero_iff {n : Nat} (v : BitVec n) : wt v = 0 ↔ v = 0#n := by
  rw [wt_eq_countP, List.countP_eq_zero]
  constructor
  · intro h
    apply BitVec.eq_of_getLsbD_eq
    intro k hk
    simpa using h k (List.mem_range.mpr hk)
  · rintro rfl
    simp

/-- Flipping the bits of y in x changes the weight by at most the weight of y. -/
theorem wt_xor_le {n : Nat} (x y : BitVec n) : wt (x ^^^ y) ≤ wt x + wt y := by
  unfold wt
  generalize List.range n = l
  induction l with
  | nil => simp
  | cons k l ih =>
    simp only [List.map_cons, List.sum_cons, BitVec.getLsbD_xor] at ih ⊢
    cases x.getLsbD k <;> cases y.getLsbD k <;> simp <;> omega

/-- The weights of two halves add up. -/
theorem wt_append {m n : Nat} (x : BitVec m) (y : BitVec n) : wt (x ++ y) = wt x + wt y := by
  have split : List.range (m + n) = List.range n ++ (List.range m).map (n + ·) := by rw [Nat.add_comm, List.range_add]
  rw [wt_eq_countP, wt_eq_countP, wt_eq_countP, split, List.countP_append, Nat.add_comm (List.countP _ (List.range m)),
    List.countP_map]
  congr 1
  · apply List.countP_congr
    intro k hk
    simp [BitVec.getLsbD_append, List.mem_range.mp hk]
  · apply List.countP_congr
    intro k _
    simp [BitVec.getLsbD_append]

/-- The parity of a sum of bits is the XOR of the bits. -/
theorem wt_mod_two_xor {n : Nat} (x y : BitVec n) : wt (x ^^^ y) % 2 = (wt x + wt y) % 2 := by
  unfold wt
  generalize List.range n = l
  induction l with
  | nil => simp
  | cons k l ih =>
    simp only [List.map_cons, List.sum_cons, BitVec.getLsbD_xor] at ih ⊢
    cases x.getLsbD k <;> cases y.getLsbD k <;> simp <;> omega

end Sys2Proof.Laws
end

