-- ==== Sys2Proof/Tests/Slice0.lean ====
section
/-! SUPPORT. The model's own tests. Expected results are the vectors of 95_test_vectors.md and the examples of the rules,
under REF where they depend on the matrix. Then a witness for every statement of the obligations that has hypotheses. -/

namespace Sys2Proof.Tests

open Sys2Proof.Machine Sys2Proof.Laws

/-- An idle block with REF as its matrix. -/
def refState : State :=
  ⟨refMatrix, [], none, [], [], []⟩

/-- The same block with requests waiting. -/
def refWith (ws : List Req) : State :=
  { refState with pending := ws }

/-- The next state of an outcome. -/
def nextOf : Host.Outcome State Fault Refusal → Option State
  | .next s => some s
  | .fault _ => none
  | .refused _ => none

/-- The fault of an outcome. -/
def faultOf : Host.Outcome State Fault Refusal → Option Fault
  | .next _ => none
  | .fault f => some f
  | .refused _ => none

/-- The response of one step that serves the request `w` under REF. -/
def served (w : Req) : Option Response :=
  (nextOf (step (refWith [w]))).bind (·.rsp)

/-! ### Well-formedness: each check refuses an ill-formed term -/

theorem test_wellFormed_accepts : (Line.op .encode 0xFFFFFFFF).wellFormed = true ∧ (Line.raw 7 0xFFFFFFFF).wellFormed = true := by
  decide

theorem test_wellFormed_refuses_literal : (Line.op .encode 0x100000000).wellFormed = false := by decide

theorem test_wellFormed_refuses_raw_operand : (Line.raw 5 0x100000000).wellFormed = false := by decide

theorem test_wellFormed_refuses_raw_op : (Line.raw 8 0).wellFormed = false := by decide

/-- A matrix that is not symmetric: A[0][1] alone is set. -/
theorem test_admissible_refuses_asymmetric :
    ¬ (⟨#v[0x400, 0, 0, 0, 0, 0, 0, 0, 0, 0, 0, 0]⟩ : GenMatrix).Symmetric := by decide

/-- The zero matrix is no involution. -/
theorem test_admissible_refuses_zero : ¬ (⟨#v[0, 0, 0, 0, 0, 0, 0, 0, 0, 0, 0, 0]⟩ : GenMatrix).Involutive := by
  intro h
  exact absurd (h 1#12) (by decide +kernel)

/-- The identity matrix meets P1 and P2 and gives distance 2 (R19). -/
theorem test_admissible_refuses_identity :
    ¬ (⟨#v[0x800, 0x400, 0x200, 0x100, 0x080, 0x040, 0x020, 0x010, 0x008, 0x004, 0x002, 0x001]⟩ : GenMatrix).DistanceEight := by
  intro h
  exact absurd (h 1#12 (by decide)) (by decide +kernel)

/-! ### Decoding: words written out from R41 and R43, and the whole way back -/

theorem test_decode_bitparity : decode 0b00000000000000000000000101010111100#35 = .bitparity 0xABC#32 := by decide

theorem test_decode_popcount : decode 0b00110000000000000000000000000000000#35 = .popcount 0x80000000#32 := by decide

theorem test_decode_matmul : decode 0b01000000000000000001111000100100011#35 = .matmul 0xF123#32 := by decide

theorem test_decode_encode : decode 0b01111111111111111111111111111111111#35 = .encode 0xFFFFFFFF#32 := by decide

theorem test_decode_decode : decode 0b10011111111000100100011011001011111#35 = .decode 0xFF12365F#32 := by decide

theorem test_decode_reserved5 : decode 0b10100000000000000000000000000000000#35 = .reserved5 0#32 := by decide

theorem test_decode_reserved6 : decode 0b11000000000000000000000000100100011#35 = .reserved6 0x123#32 := by decide

theorem test_decode_reserved7 : decode 0b11111111111111111111111111111111111#35 = .reserved7 0xFFFFFFFF#32 := by decide

theorem test_encode_decode : encode (.decode 0x92365E#32) = 0x40092365E#35 := by decide

theorem test_matchingRows : matchingRows 0x6FFFFFFFF#35 = ["RESERVED_6"] := by decide

theorem test_decodeTableWord : decodeTableWord 40 0x300000123 = some (.encode 0x123#32) := by decide

/-- A number above 35 bits is refused by name (R48). -/
theorem test_decodeNat_refuses : decodeNat 40 0x800000000 = .error .widerThanRequest := by decide

theorem test_responseWord : responseWord ⟨true, 0#32⟩ = 0x100000000#33 := by decide

/-- The first step after reset runs the placed request, whatever GOLAY_MATRIX is. -/
theorem test_reset_runs_placed_request :
    step (State.reset.withFetchWord 40 0x40092365E) = exec (.decode 0x92365E#32) State.reset := rfl

/-! ### The instructions, by the vectors of 95_test_vectors.md part 2 -/

theorem test_bitparity_abc : served 0x000000ABC#35 = some ⟨false, 1#32⟩ := by decide +kernel

theorem test_bitparity_ignores_bit12 : served 0x000001000#35 = some ⟨false, 0#32⟩ := by decide +kernel

theorem test_popcount_all : served 0x1FFFFFFFF#35 = some ⟨false, 32#32⟩ := by decide +kernel

theorem test_popcount_example : served 0x10012365F#35 = some ⟨false, 12#32⟩ := by decide +kernel

theorem test_matmul_example : served 0x200000123#35 = some ⟨false, 0x65F#32⟩ := by decide +kernel

theorem test_matmul_row0 : served 0x200000800#35 = some ⟨false, 0xDC5#32⟩ := by decide +kernel

theorem test_encode_example : served 0x300000123#35 = some ⟨false, 0x12365F#32⟩ := by decide +kernel

theorem test_encode_ignores_bit12 : served 0x300001FFF#35 = some ⟨false, 0xFFFFFF#32⟩ := by decide +kernel

theorem test_decode_step5 : served 0x40092365E#35 = some ⟨false, 0x123#32⟩ := by decide +kernel

theorem test_decode_wrong_message : served 0x400EDC65F#35 = some ⟨false, 0xEDD#32⟩ := by decide +kernel

theorem test_reserved5 :
    (nextOf (step (refWith [0x500000000#35]))).map (fun t => (t.rsp, t.faults))
      = some (some ⟨true, 0#32⟩, [⟨0, 5#3⟩]) := by decide +kernel

theorem test_reserved6 : served 0x600000123#35 = some ⟨true, 0#32⟩ := by decide +kernel

theorem test_reserved7 : served 0x7FFFFFFFF#35 = some ⟨true, 0#32⟩ := by decide +kernel

/-! ### The port, the assembler and one host line -/

theorem test_readRsp_faults : faultOf (step { refState with port := [.readRsp] }) = some .noResponse := by decide

theorem test_reset_discards :
    (nextOf (step { refWith [0x300000123#35] with port := [.reset] })).map (·.pending) = some [] := by decide

theorem test_accept_appends :
    (nextOf (step { refWith [1#35] with port := [.accept 2#35] })).map (·.pending) = some [1#35, 2#35] := by decide

/-- `.req 5, 0` is the request 0x5_0000_0000 (R49). -/
theorem test_assemble_raw :
    assembleText ['.', 'r', 'e', 'q', ' ', '5', ',', ' ', '0'] = .ok ⟨0x500000000#35, false⟩ := by decide

/-- ENCODE of 0x123 is REQ = 0x3_0000_0123 (R41), in any letter case (R49). -/
theorem test_assemble_encode :
    assembleText ['E', 'n', 'C', 'o', 'd', 'e', ' ', '0', 'x', '1', '2', '3'] = .ok ⟨0x300000123#35, false⟩ := by decide

/-- A literal with ignored bits set is accepted with a warning (R49). -/
theorem test_assemble_warns :
    assembleText ['m', 'a', 't', 'm', 'u', 'l', ' ', '6', '1', '7', '3', '1'] = .ok ⟨0x20000F123#35, true⟩ := by decide

/-- A literal above 2^32-1 is refused in the raw form (R49). -/
theorem test_assemble_raw_refuses : assemble (.raw 5 0x100000000) = .error .literalTooWide := by decide

/-- The warnings at their bounds, on either side (R44, R49). -/
theorem test_assemble_warning_bounds :
    assemble (.op .encode 0xFFF) = .ok ⟨0x300000FFF#35, false⟩ ∧ assemble (.op .encode 0x1000) = .ok ⟨0x300001000#35, true⟩ ∧
      assemble (.op .decode 0xFFFFFF) = .ok ⟨0x400FFFFFF#35, false⟩ ∧
      assemble (.op .decode 0x1000000) = .ok ⟨0x401000000#35, true⟩ := by decide

/-- A run with a request at the port is not over, and one with only a read at the port is (R90; log entry 20). -/
theorem test_runOver :
    ({ refState with port := [.accept 1#35] } : State).runOver = false ∧
      ({ refState with port := [.readRsp] } : State).runOver = true ∧ (refWith [1#35]).runOver = false := by decide

theorem test_show_illegal : showResponse ⟨true, 0#32⟩ = ['-', '>', ' ', 'I', 'L', 'L', 'E', 'G', 'A', 'L'] := by decide

/-- The illegal request of program P3 binds 0 (R50). -/
theorem test_script_raw :
    (match runScript (.raw "x" 5#3 (.lit 0x123)) refState with
      | .ok h => h.vars
      | .error _ => []) = [("x", 0)] := by decide +kernel

/-! ### Witnesses: for each statement with hypotheses, something that meets them -/

/-- MatmulAnswers, MatmulIsItsOwnInverse, SyndromeLaw, RowsHaveOddWeight, ColumnEqualsRow, EncodeAnswers, EncodeLaws, DecodeIsSound,
DecodeIsBoundedDistance, CorrectsUpToThreeErrors, TranslationLaw and FiveErrorsGiveWrongMessage: REF is admissible, and so
is the matrix after reset. -/
theorem witness_admissible :
    (refState.rom.Admissible ∧ refState.rom.Symmetric ∧ refState.rom.Involutive ∧ refState.rom = refMatrix) ∧
      State.reset.rom.Admissible :=
  ⟨⟨refMatrix_admissible, refMatrix_symmetric, refMatrix_involutive, rfl⟩, Config.golayRom_admissible⟩

/-- DecodeAnswersStepwise, the clause of step 2, at weight 3 (vector 0x00123658). -/
theorem witness_decode_step2 :
    wt (0x658#12 ^^^ matmul12 refState.rom 0x123#12) = 3 ∧
      decodeBranch refState.rom 0x123658#24 = .step2 0x123#12 := by decide +kernel

/-- DecodeAnswersStepwise, the clause of step 4, at weight 3 (vector 0x0062365F): step 2's condition fails. -/
theorem witness_decode_step4 :
    ¬ (matmul12 refState.rom 0x623#12 = 0x65F#12 ∨ wt (0x65F#12 ^^^ matmul12 refState.rom 0x623#12) ≤ 3) ∧
      wt (matmul12 refState.rom 0x65F#12 ^^^ 0x623#12) = 3 := by decide +kernel

/-- DecodeAnswersStepwise, the clause of step 5, at the last index (vector 0x00122E5E). -/
theorem witness_decode_step5 :
    ¬ (matmul12 refState.rom 0x122#12 = 0xE5E#12 ∨ wt (0xE5E#12 ^^^ matmul12 refState.rom 0x122#12) ≤ 3) ∧
      ¬ wt (matmul12 refState.rom 0xE5E#12 ^^^ 0x122#12) ≤ 3 ∧
      decodeBranch refState.rom 0x122E5E#24 = .step5 11 0x123#12 := by decide +kernel

/-- DecodeAnswersStepwise, the clause of step 6, at the first index (vector 0x00D23E5F). -/
theorem witness_decode_step6 : decodeBranch refState.rom 0xD23E5F#24 = .step6 0 0x123#12 := by decide +kernel

/-- DecodeAnswersStepwise and ErrorResultOnlyFromStepSeven, step 7 (vector 0x00123650). -/
theorem witness_decode_step7 : decodeBranch refState.rom 0x123650#24 = .step7 := by decide +kernel

/-- FirstStepThatFires, one error pattern for each clause. -/
theorem witness_error_weights :
    (wt ((0x000007#24).extractLsb' 12 12) = 0 ∧ wt ((0x000007#24).extractLsb' 0 12) = 3) ∧
    (wt ((0x700000#24).extractLsb' 12 12) = 3 ∧ wt ((0x700000#24).extractLsb' 0 12) = 0) ∧
    (wt ((0x001801#24).extractLsb' 12 12) = 1 ∧ wt ((0x001801#24).extractLsb' 0 12) = 2) ∧
    (wt ((0xC00800#24).extractLsb' 12 12) = 2 ∧ wt ((0xC00800#24).extractLsb' 0 12) = 1) := by decide +kernel

/-- DecodeIsSound and TranslationLaw: an input with a message, and one without. -/
theorem witness_decode_values :
    decode24 refState.rom 0x12365F#24 = 0x123#16 ∧ decode24 refState.rom 0x00000F#24 = 0xFFFF#16 := by decide +kernel

/-- DecodeIsBoundedDistance, first clause, at distance 3 (vector 0x00123658). -/
theorem witness_distance_three : wt (0x123658#24 ^^^ encode24 refState.rom 0x123#12) = 3 := by decide +kernel

/-- DecodeIsBoundedDistance, second clause: 0x00000F is at distance 4 from the codeword of 0, so by P3 no codeword is within
distance 3 of it (vector 0x00000F). -/
theorem witness_no_codeword_near (m : Word12) : 3 < wt (0x00000F#24 ^^^ encode24 refState.rom m) := by
  by_cases hm : m = 0
  · subst hm; decide +kernel
  · have far : 8 ≤ wt (encode24 refState.rom m) := refMatrix_distance m hm
    have near : wt (0x00000F#24 ^^^ (0x00000F#24 ^^^ encode24 refState.rom m)) ≤
        wt 0x00000F#24 + wt (0x00000F#24 ^^^ encode24 refState.rom m) := wt_xor_le _ _
    have four : wt 0x00000F#24 = 4 := by decide
    rw [← BitVec.xor_assoc, BitVec.xor_self, BitVec.zero_xor] at near
    omega

/-- ColumnEqualsRow, the last clause: a word that is orthogonal to every codeword. -/
theorem witness_orthogonal (a : Word12) : wt (0#24 &&& encode24 refState.rom a) % 2 = 0 := by
  rw [BitVec.zero_and]; decide

/-- CorrectsUpToThreeErrors at both ends of its range, and DetectsFourErrors. -/
theorem witness_pattern_weights : wt 0x000001#24 = 1 ∧ wt 0x800001#24 = 2 ∧ wt 0x001801#24 = 3 ∧ wt 0x00000F#24 = 4 := by
  decide

/-- IgnoredBitsHaveNoEffect: different operands that agree on the bits read. -/
theorem witness_ignored_bits :
    (0xF123#32).extractLsb' 0 12 = (0x123#32).extractLsb' 0 12 ∧
      (0xFF12365F#32).extractLsb' 0 24 = (0x12365F#32).extractLsb' 0 24 := by decide

/-- FiveOperationsAreTotal: an instruction of the list. -/
theorem witness_five_operations :
    Instr.decode 0#32 ∈ [Instr.bitparity 0#32, .popcount 0#32, .matmul 0#32, .encode 0#32, .decode 0#32] := by decide

/-- ReservedOpcodesAnswerIllegal: the lowest reserved opcode first, a legal request behind it. -/
theorem witness_reserved_then_legal :
    reqOp 0x500000000#35 ∈ [0b101#3, 0b110#3, 0b111#3] ∧ reqOp 0x7FFFFFFFF#35 ∈ [0b101#3, 0b110#3, 0b111#3] ∧
      Instr.reserved7 0#32 ∈ [Instr.reserved5 0#32, .reserved6 0#32, .reserved7 0#32] ∧ (refWith [0x500000000#35, 0x000000ABC#35]).port = [] ∧
      (refWith [0x500000000#35, 0x000000ABC#35]).pending = 0x500000000#35 :: 0x000000ABC#35 :: [] := by decide

/-- IllegalBitMeansReservedOpcode: a response with ILLEGAL = 1. -/
theorem witness_illegal : served 0x500000000#35 = some ⟨true, 0#32⟩ := by decide +kernel

/-- ExecFrame: a legal opcode and a reserved one, at the boundary between them. -/
theorem witness_exec_next :
    (∃ t, exec (.decode 0#32) refState = .next t ∧ (opOf (.decode 0#32)).toNat = 4) ∧
      (∃ t, exec (.reserved5 0#32) refState = .next t ∧ (opOf (.reserved5 0#32)).toNat = 5) :=
  ⟨⟨_, rfl, rfl⟩, ⟨_, rfl, rfl⟩⟩

/-- ResponseDependsOnRequestAndMatrixAlone: two different states with one matrix. -/
theorem witness_same_matrix : refState ≠ refWith [1#35] ∧ refState.rom = (refWith [1#35]).rom := by decide

/-- StepRunsDecodedRequest: a request waiting, with no event and with `serve` at the port; and a number that is a request. -/
theorem witness_step_runs :
    ((refWith [1#35]).pending = 1#35 :: [] ∧ (refWith [1#35]).port = []) ∧
      (placeRequest 1#35 refState).port = .serve :: [] ∧ requestOfNat 40 0x7FFFFFFFF = .ok 0x7FFFFFFFF#35 := by decide

/-- AcceptJoinsLast, ResetDiscardsRequestsInFlight (both events) and ReadBeforeFirstResponseFaults (both clauses). -/
theorem witness_port_events :
    ({ refState with port := [.accept 1#35] } : State).port = .accept 1#35 :: [] ∧
    ({ refState with port := [.reset] } : State).port = .reset :: [] ∧
    ({ refState with port := [.powerCycle] } : State).port = .powerCycle :: [] ∧
    ({ refState with port := [.reset, .readRsp] } : State).port = .reset :: .readRsp :: [] ∧
    ({ refState with port := [.readRsp], rsp := some ⟨false, 7#32⟩ } : State).port = .readRsp :: [] ∧
    ({ refState with port := [.readRsp], rsp := some ⟨false, 7#32⟩ } : State).rsp = some ⟨false, 7#32⟩ := by decide

/-- ReadBeforeFirstResponseFaults: a read while RSP has no value, with a request accepted and not answered; and a step from such
a state that delivers no response. -/
theorem witness_read_before_response :
    ({ refWith [1#35] with port := [.readRsp] } : State).port = .readRsp :: [] ∧
    ({ refWith [1#35] with port := [.readRsp] } : State).rsp = none ∧
    ∃ t, step { refState with port := [.accept 1#35, .readRsp] } = .next t ∧ t.transcript = refState.transcript :=
  ⟨rfl, rfl, _, rfl, rfl⟩

/-- IdleStepChangesNothing: the idle block. -/
theorem witness_idle : refState.port = [] ∧ refState.pending = [] := by decide

/-- RomNeverChanges: a step with a next state. -/
theorem witness_step_next : ∃ t, step (refWith [1#35]) = .next t := ⟨_, rfl⟩

/-- A block that has answered one illegal request and has a request waiting. -/
def answeredState : State :=
  ⟨refMatrix, [1#35], some ⟨true, 0#32⟩, [(0x500000000#35, ⟨true, 0#32⟩)], [⟨0, 5#3⟩], []⟩

/-- StepKeepsInvariant and NoFaultMeansNoIllegalResponse: a state that meets the invariant, with a fault recorded, and its next
state. -/
theorem witness_invariant : answeredState.Inv ∧ ∃ t, step answeredState = .next t := by
  refine ⟨⟨refMatrix_admissible, ?_, by decide, ?_⟩, _, rfl⟩
  · intro p hp
    obtain rfl : p = (0x500000000#35, ⟨true, 0#32⟩) := by simpa [answeredState] using hp
    rfl
  · intro r hr
    obtain rfl : (⟨true, 0#32⟩ : Response) = r := by simpa [answeredState] using hr
    rfl

/-- EveryAcceptedRequestIsAnsweredInOrder and AnyOrderGivesTheSameResponses: two requests in either order. -/
theorem witness_two_orders :
    (refWith [1#35, 2#35]).port = [] ∧ (refWith [2#35, 1#35]).port = [] ∧
      (refWith [1#35, 2#35]).rom = (refWith [2#35, 1#35]).rom ∧
      (refWith [1#35, 2#35]).pending.Perm (refWith [2#35, 1#35]).pending :=
  ⟨rfl, rfl, rfl, List.Perm.swap ..⟩

/-- AssemblerWritesRequests: the largest literal that is accepted and the smallest that is refused, and the same for OP. -/
theorem witness_literals :
    (0xFFFFFFFF : Nat) < 2 ^ 32 ∧ 2 ^ 32 ≤ (0x100000000 : Nat) ∧ (7 : Nat) < 8 ∧ 8 ≤ (8 : Nat) := by decide

end Sys2Proof.Tests
end

section
/-! The observation: what any instruction answers, what a step can do with the port, and the invariant of the transcript, the
fault record and RSP. Settles O42, O32, O37, O40 and O43. -/

namespace Sys2Proof.Proofs

open Sys2Proof.Machine Sys2Proof.Laws

/-! ### The answer to an instruction -/

/-- The response of each instruction, as a function of the matrix and the instruction alone (R37); `exec_eq` ties it to
`exec`. -/
def responseTo (G : GenMatrix) : Instr → Response
  | .bitparity x => legalResponse (BitVec.ofBool (parity12 (operand12 x)))
  | .popcount x => legalResponse (popcount32 (operand32 x))
  | .matmul x => legalResponse (matmul12 G (operand12 x))
  | .encode x => legalResponse (encode24 G (operand12 x))
  | .decode x => legalResponse (decode24 G (operand24 x))
  | .reserved5 _ | .reserved6 _ | .reserved7 _ => illegalResponse

/-- Answer a request: with ILLEGAL = 1 the fault is recorded first, then the response is delivered (R71, R88). -/
def answerWith (w : Req) (r : Response) (s : State) : State :=
  deliver w r (if r.illegal then recordIllegalOp w s else s)

@[simp] theorem answerWith_rom (w : Req) (r : Response) (s : State) : (answerWith w r s).rom = s.rom := by
  unfold answerWith; split <;> rfl

@[simp] theorem answerWith_pending (w : Req) (r : Response) (s : State) : (answerWith w r s).pending = s.pending := by
  unfold answerWith; split <;> rfl

@[simp] theorem answerWith_port (w : Req) (r : Response) (s : State) : (answerWith w r s).port = s.port := by
  unfold answerWith; split <;> rfl

@[simp] theorem answerWith_rsp (w : Req) (r : Response) (s : State) : (answerWith w r s).rsp = some r := rfl

@[simp] theorem answerWith_transcript (w : Req) (r : Response) (s : State) :
    (answerWith w r s).transcript = s.transcript ++ [(w, r)] := by
  unfold answerWith; split <;> rfl

@[simp] theorem answerWith_faults (w : Req) (r : Response) (s : State) :
    (answerWith w r s).faults = s.faults ++ if r.illegal then [⟨s.transcript.length, reqOp w⟩] else [] := by
  unfold answerWith; split <;> simp

/-- Every instruction, in every state, ends with its one response. -/
theorem exec_eq (i : Instr) (s : State) : exec i s = .next (answerWith (encode i) (responseTo s.rom i) s) := by
  cases i <;> rfl

/-- ILLEGAL is 1 for the reserved opcodes alone (R42, R47). -/
theorem responseTo_illegal (G : GenMatrix) (i : Instr) : (responseTo G i).illegal = decide (5 ≤ (opOf i).toNat) := by
  cases i <;> rfl

/-- A word decodes to an instruction with that word. -/
@[simp] theorem encode_decode (w : Req) : encode (decode w) = w := by
  obtain ⟨hop, hoperand⟩ := opOf_decode w
  rw [encode, hop, hoperand, requestWord_fields]

/-- The response a request calls for is its instruction's. -/
theorem responseOf_eq (G : GenMatrix) (w : Req) : responseOf G w = some (responseTo G (decode w)) := by
  simp [responseOf, exec_eq]

/-- A request that is run is answered with the response it calls for, whatever else the state holds. -/
theorem exec_decode_next {w : Req} {s t : State} (h : exec (decode w) s = .next t) :
    ∃ r, responseOf s.rom w = some r ∧ t = answerWith w r s := by
  refine ⟨_, responseOf_eq s.rom w, ?_⟩
  rw [exec_eq, encode_decode] at h
  injection h with h
  exact h.symm

/-- Settles O32: the fields of `answerWith`, and ILLEGAL by the opcode. -/
theorem execFrame : Obligations.ExecFrame := by
  intro i s t h
  obtain rfl : answerWith (encode i) (responseTo s.rom i) s = t := by simpa [exec_eq] using h
  have hop : reqOp (encode i) = opOf i := reqOp_requestWord ..
  refine ⟨by simp, by simp, by simp, ⟨_, answerWith_rsp .., answerWith_transcript ..⟩, fun hlegal => ?_, fun hreserved => ?_⟩
  · simp [responseTo_illegal, Nat.not_le.mpr hlegal]
  · simp [responseTo_illegal, hreserved, hop]

/-! ### The invariant of the observation -/

/-- The fault record of a transcript with one more pair: an entry at the pair's own position, where its ILLEGAL is 1. -/
theorem illegalOpsFrom_concat (n : Nat) (ps : List (Req × Response)) (w : Req) (r : Response) :
    illegalOpsFrom n (ps ++ [(w, r)]) =
      illegalOpsFrom n ps ++ if r.illegal then [⟨n + ps.length, reqOp w⟩] else [] := by
  induction ps generalizing n with
  | nil => simp [illegalOpsFrom]
  | cons p ps ih =>
    have hpos : n + 1 + ps.length = n + (ps.length + 1) := by omega
    cases hp : p.2.illegal <;> simp [illegalOpsFrom, hp, ih, hpos]

/-- The invariant speaks of the matrix and the observation alone, and RSP may lose its value. -/
theorem inv_congr {s t : State} (hs : s.Inv) (hrom : t.rom = s.rom) (htr : t.transcript = s.transcript)
    (hf : t.faults = s.faults) (hrsp : t.rsp = s.rsp ∨ t.rsp = none) : t.Inv where
  admissible := hrom ▸ hs.admissible
  responses := by rw [hrom, htr]; exact hs.responses
  faults := by rw [hf, htr]; exact hs.faults
  rsp r hr := by
    rcases hrsp with hsame | hnone
    · rw [htr]; exact hs.rsp r (hsame ▸ hr)
    · simp [hnone] at hr

/-- Answering a request with the response it calls for keeps the invariant. -/
theorem inv_answerWith {s : State} {w : Req} {r : Response} (hs : s.Inv) (hr : responseOf s.rom w = some r) :
    (answerWith w r s).Inv where
  admissible := by simpa using hs.admissible
  responses p hp := by
    rw [answerWith_rom]
    rcases List.mem_append.mp (answerWith_transcript w r s ▸ hp) with hold | hnew
    · exact hs.responses p hold
    · obtain rfl : p = (w, r) := by simpa using hnew
      exact hr
  faults := by simp [illegalOpsFrom_concat, hs.faults]
  rsp r' hr' := by simpa using hr'

/-- Settles O42: a step answers a request, or leaves the observation as it is but for the value of RSP. -/
theorem stepKeepsInvariant : Obligations.StepKeepsInvariant := by
  intro s t hs h
  obtain ⟨u, hu, ht⟩ | ⟨w, es, -, rfl⟩ | ⟨e, es, -, -, rfl⟩ | ⟨es, r, -, -, rfl⟩ := step_cases h
  · have huInv : u.Inv := by
      obtain rfl | ⟨es, -, rfl⟩ := hu
      · exact hs
      · exact inv_congr hs rfl rfl rfl (.inl rfl)
    obtain rfl | ⟨w, rest, -, hexec⟩ := ht
    · exact huInv
    · obtain ⟨r, hr, rfl⟩ := exec_decode_next hexec
      exact inv_answerWith (inv_congr huInv rfl rfl rfl (.inl rfl)) hr
  · exact inv_congr hs rfl rfl rfl (.inl rfl)
  · exact inv_congr hs rfl rfl rfl (.inr rfl)
  · exact inv_congr hs rfl rfl rfl (.inl rfl)

/-- Settles O43: nothing has been observed, and GOLAY_MATRIX is admissible. -/
theorem invariantHoldsAtReset : Obligations.InvariantHoldsAtReset where
  admissible := Config.golayRom_admissible
  responses _ hp := absurd hp List.not_mem_nil
  faults := rfl
  rsp _ hr := nomatch hr

/-! ### Reset and reading RSP -/

/-- Settles O40: each field of `State.reset`. -/
theorem resetState : Obligations.ResetState :=
  ⟨rfl, Config.golayRom_admissible, rfl, rfl, rfl, rfl, rfl, rfl⟩

/-- A read at the port while RSP has no value is the fault. -/
theorem step_readRsp_of_none {s : State} {es : List PortEvent} (hport : s.port = .readRsp :: es) (hrsp : s.rsp = none) :
    step s = .fault .noResponse := by
  simp [step, nextTurn_of_cons hport, eventTurn, readRsp, hrsp, runTurn]

/-- A read at the port while RSP has a value uses up the event and nothing else. -/
theorem step_readRsp_of_some {s : State} {es : List PortEvent} {r : Response} (hport : s.port = .readRsp :: es)
    (hrsp : s.rsp = some r) : step s = .next { s with port := es } := by
  simp [step, nextTurn_of_cons hport, eventTurn, readRsp, hrsp, runTurn]

/-- The reset event at the port is the reset input. -/
theorem step_reset {s : State} {es : List PortEvent} (hport : s.port = .reset :: es) :
    step s = .next (resetInput { s with port := es }) := by
  simp [step, nextTurn_of_cons hport, eventTurn, runTurn]

/-- A step that delivers no response gives RSP no value. -/
theorem step_keeps_rsp_none {s t : State} (h : step s = .next t) (hrsp : s.rsp = none)
    (htr : t.transcript = s.transcript) : t.rsp = none := by
  obtain ⟨u, hu, ht⟩ | ⟨w, es, -, rfl⟩ | ⟨e, es, -, -, rfl⟩ | ⟨es, r, -, -, rfl⟩ := step_cases h
  · obtain ⟨hursp, hutr⟩ : u.rsp = none ∧ u.transcript = s.transcript := by
      obtain rfl | ⟨es, -, rfl⟩ := hu <;> exact ⟨hrsp, rfl⟩
    obtain rfl | ⟨w, rest, -, hexec⟩ := ht
    · exact hursp
    · obtain ⟨r, -, rfl⟩ := exec_decode_next hexec
      simp [hutr] at htr
  · exact hrsp
  · rfl
  · exact hrsp

/-- Settles O37: one lemma per clause, and the read that follows the reset meets the first. -/
theorem readBeforeFirstResponseFaults : Obligations.ReadBeforeFirstResponseFaults := by
  refine ⟨fun s es => step_readRsp_of_none, resetInput_rsp, fun s t => step_keeps_rsp_none, fun s es hport => ?_,
    fun s es r hport hrsp => ⟨step_readRsp_of_some hport hrsp, by simp [readRsp, hrsp]⟩⟩
  exact ⟨_, step_reset hport, step_readRsp_of_none rfl rfl⟩

end Sys2Proof.Proofs
end

section
/-! The matrix: the parity of an AND as an inner product over GF(2), MATMUL as a matrix, and what P1 and P2 say of it. Settles
O10, O12, O13 and O14. -/

namespace Sys2Proof.Proofs

open Sys2Proof.Machine Sys2Proof.Laws

/-! ### The parity of an AND is an inner product -/

/-- The parity tree gives the parity of the weight (R10, R51). -/
theorem bodd_wt (x : Word12) : (wt x).bodd = parity12 x := by
  have bodd_toNat : ∀ b : Bool, b.toNat.bodd = b := by decide
  simp [wt, parity12, List.range_succ, Nat.bodd_add, bodd_toNat]

/-- The parity of a word, its set bits counted in the order of the matrix indices. -/
theorem bodd_length_filter_getLsbD (x : Word12) :
    (matrixIndices.filter fun k => x.getLsbD (11 - k.val)).length.bodd = parity12 x := by
  have bodd_ite : ∀ b : Bool, (if b then 1 else 0 : Nat).bodd = b := by decide
  simp [matrixIndices, ← List.countP_eq_length_filter, List.countP_cons, Nat.bodd_add, parity12, bodd_ite]

/-- The inner product with a unit vector is one bit. -/
@[simp] theorem parity12_unitMsb_and (i : Fin 12) (y : Word12) : parity12 (unitMsb i &&& y) = y.getLsbD (11 - i.val) := by
  fin_cases i <;> simp [parity12, unitMsb]

/-- The inner product is additive in its first argument. -/
theorem parity12_xor_and (x y z : Word12) : parity12 ((x ^^^ y) &&& z) = (parity12 (x &&& z) ^^ parity12 (y &&& z)) := by
  rw [← parity12_xor]
  congr 1
  ext k
  simp [Bool.and_xor_distrib_right]

/-- A word whose inner product with every word is 0 is the zero word. -/
theorem eq_zero_of_parity12_and {x : Word12} (h : ∀ y, parity12 (x &&& y) = false) : x = 0#12 := by
  apply eq_of_msbBits
  intro i
  rw [← parity12_unitMsb_and, BitVec.and_comm, h]
  simp

/-- Additive functions that agree on the unit vectors are equal. -/
theorem additive_ext {n : Nat} {F H : Word12 → BitVec n} (hF : ∀ x y, F (x ^^^ y) = F x ^^^ F y)
    (hH : ∀ x y, H (x ^^^ y) = H x ^^^ H y) (hunits : ∀ i, F (unitMsb i) = H (unitMsb i)) (x : Word12) : F x = H x := by
  rw [additive_eq_selectXor F hF, additive_eq_selectXor H hH]
  simp only [hunits]

/-! ### MATMUL as a matrix -/

/-- The product with the unit vector of index j is column j of A (R15). -/
theorem getLsbD_matmul12_unitMsb (G : GenMatrix) (i j : Fin 12) :
    (matmul12 G (unitMsb j)).getLsbD (11 - i.val) = G.entry i j := by
  rw [getLsbD_matmul12, parity12_unitMsb_and, GenMatrix.entry]

/-- MATMUL twice on the unit vector of index j is column j of `A · A`. -/
theorem getLsbD_matmul12_twice_unitMsb (G : GenMatrix) (i j : Fin 12) :
    (matmul12 G (matmul12 G (unitMsb j))).getLsbD (11 - i.val) =
      (matrixIndices.filter fun k => G.entry i k && G.entry k j).length.bodd := by
  rw [getLsbD_matmul12, BitVec.and_comm, ← bodd_length_filter_getLsbD]
  simp only [BitVec.getLsbD_and, getLsbD_matmul12_unitMsb]
  rfl

/-- P2 is a statement about the twelve unit vectors. -/
theorem involutive_iff_unitMsb (G : GenMatrix) : G.Involutive ↔ ∀ j, matmul12 G (matmul12 G (unitMsb j)) = unitMsb j := by
  refine ⟨fun h j => h (unitMsb j), fun h x => ?_⟩
  exact additive_ext (F := fun x => matmul12 G (matmul12 G x)) (H := fun x => x) (by simp [matmul12_xor]) (by simp) h x

/-- A word is a unit vector when its bits are. -/
theorem eq_unitMsb_iff (x : Word12) (j : Fin 12) : x = unitMsb j ↔ ∀ i : Fin 12, x.getLsbD (11 - i.val) = decide (i = j) := by
  have hunit (i : Fin 12) : (unitMsb j).getLsbD (11 - i.val) = decide (i = j) := by
    simp only [getLsbD_unitMsb, eq_comm]
  refine ⟨fun h i => h ▸ hunit i, fun h => eq_of_msbBits fun i => (h i).trans (hunit i).symm⟩

/-- A number is 1 or 0 modulo 2 by a condition exactly when that condition decides whether it is odd. -/
theorem mod_two_eq_ite_iff (n : Nat) (p : Prop) [Decidable p] : n % 2 = (if p then 1 else 0) ↔ n.bodd = decide p := by
  rw [Nat.mod_two_of_bodd]
  cases n.bodd <;> by_cases hp : p <;> simp [hp]

/-- Settles O12: on unit vectors, bit by bit. -/
theorem involutionIsMatrixSquare : Obligations.InvolutionIsMatrixSquare := by
  intro G
  simp only [involutive_iff_unitMsb, eq_unitMsb_iff, getLsbD_matmul12_twice_unitMsb, mod_two_eq_ite_iff]
  exact forall_comm

/-! ### P1: the product is self-adjoint -/

/-- Under P1 the product with a unit vector is a row (R21). -/
theorem matmul12_unitMsb {G : GenMatrix} (hsym : G.Symmetric) (i : Fin 12) : matmul12 G (unitMsb i) = matrixRow G i := by
  apply eq_of_msbBits
  intro j
  rw [getLsbD_matmul12_unitMsb, hsym j i, GenMatrix.entry]

/-- Under P1 the product moves across the inner product. -/
theorem parity12_matmul12_and {G : GenMatrix} (hsym : G.Symmetric) (x y : Word12) :
    parity12 (matmul12 G x &&& y) = parity12 (x &&& matmul12 G y) := by
  rw [← BitVec.ofBool_eq_iff_eq]
  refine additive_ext (F := fun x => BitVec.ofBool (parity12 (matmul12 G x &&& y)))
    (H := fun x => BitVec.ofBool (parity12 (x &&& matmul12 G y))) ?_ ?_ (fun i => ?_) x
  · simp [matmul12_xor, parity12_xor_and]
  · simp [parity12_xor_and]
  · simp only [matmul12_unitMsb hsym, parity12_unitMsb_and, getLsbD_matmul12, BitVec.and_comm y]

/-- Under P1 and P2 every row has odd parity (R20): a row is its own inner product, which the product moves to a unit
vector. -/
theorem parity12_matrixRow {G : GenMatrix} (hsym : G.Symmetric) (hinv : G.Involutive) (i : Fin 12) :
    parity12 (matrixRow G i) = true :=
  calc parity12 (matrixRow G i)
      = parity12 (matmul12 G (unitMsb i) &&& matmul12 G (unitMsb i)) := by rw [BitVec.and_self, matmul12_unitMsb hsym]
    _ = parity12 (unitMsb i &&& unitMsb i) := by rw [parity12_matmul12_and hsym, hinv]
    _ = true := by rw [parity12_unitMsb_and, getLsbD_unitMsb, decide_eq_true rfl]

/-- Under P1 and P2 the product of all ones is all ones (R20). -/
theorem matmul12_allOnes {G : GenMatrix} (hsym : G.Symmetric) (hinv : G.Involutive) :
    matmul12 G (BitVec.allOnes 12) = BitVec.allOnes 12 := by
  apply eq_of_msbBits
  intro i
  rw [getLsbD_matmul12, BitVec.allOnes_and, parity12_matrixRow hsym hinv, BitVec.getLsbD_allOnes]
  exact (decide_eq_true (by omega)).symm

/-! ### Codewords: self-duality -/

/-- Under P1 the inner product of a 24-bit word with the codeword of a is the inner product of `d ^ MATMUL(p)` with a. -/
theorem bodd_wt_and_encode24 {G : GenMatrix} (hsym : G.Symmetric) (d p a : Word12) :
    (wt ((d ++ p) &&& encode24 G a)).bodd = parity12 ((d ^^^ matmul12 G p) &&& a) := by
  rw [encode24, BitVec.and_append, wt_append, Nat.bodd_add, bodd_wt, bodd_wt, parity12_xor_and, parity12_matmul12_and hsym]

/-- Under P1 and P2 any two codewords are orthogonal. -/
theorem wt_encode24_and_encode24 {G : GenMatrix} (hsym : G.Symmetric) (hinv : G.Involutive) (a b : Word12) :
    wt (encode24 G a &&& encode24 G b) % 2 = 0 := by
  rw [Nat.mod_two_of_bodd, encode24, bodd_wt_and_encode24 hsym, hinv a]
  simp [parity12]

/-- Under P1 and P2 a word that is orthogonal to every codeword is a codeword. -/
theorem eq_encode24_of_orthogonal {G : GenMatrix} (hsym : G.Symmetric) (hinv : G.Involutive) {d p : Word12}
    (h : ∀ a, wt ((d ++ p) &&& encode24 G a) % 2 = 0) : d ++ p = encode24 G d := by
  have hzero : d ^^^ matmul12 G p = 0#12 := by
    apply eq_zero_of_parity12_and
    intro a
    rw [← bodd_wt_and_encode24 hsym]
    simpa [Nat.mod_two_of_bodd] using h a
  have hd : d = matmul12 G p := BitVec.xor_eq_zero_iff.mp hzero
  rw [encode24, hd, hinv p]

/-! ### The answers of MATMUL and ENCODE -/

/-- The operand of a 12-bit word. -/
theorem operand12_setWidth (v : Word12) : operand12 (v.setWidth 32) = v := by
  rw [operand12, ← BitVec.setWidth_eq_extractLsb' (by decide), BitVec.setWidth_setWidth_of_le _ (by decide),
    BitVec.setWidth_eq]

/-- The bits that a 12-bit operand reads, in their place. -/
theorem setWidth_operand12 (x : Word32) : (operand12 x).setWidth 32 = x &&& 0xFFF#32 := by
  have hmod : x.toNat % 4096 % 4294967296 = x.toNat % 4096 := by omega
  apply BitVec.eq_of_toNat_eq
  simpa [operand12, hmod] using (Nat.and_two_pow_sub_one_eq_mod x.toNat 12).symm

/-- The operand `1 << (11 - i)` is a unit vector. -/
theorem operand12_unit (i : Fin 12) : operand12 (1#32 <<< (11 - i.val)) = unitMsb i := by
  revert i; decide

/-- MATMUL answers the product of the bits it reads (R54). -/
theorem answers_matmul {s : State} {x : Word32} {y : Word12} (h : matmul12 s.rom (operand12 x) = y) :
    Answers (.matmul x) s ⟨false, y.setWidth 32⟩ := by
  subst h; rfl

/-- ENCODE answers the codeword of the bits it reads (R58). -/
theorem answers_encode {s : State} {x : Word32} {c : Word24} (h : encode24 s.rom (operand12 x) = c) :
    Answers (.encode x) s ⟨false, c.setWidth 32⟩ := by
  subst h; rfl

/-- Settles O10: P2 is Mathlib's `Function.Involutive`, and the operand of a response of MATMUL is the product. -/
theorem matmulIsItsOwnInverse : Obligations.MatmulIsItsOwnInverse := by
  intro s hinv
  refine ⟨Function.Involutive.bijective hinv, fun x => ⟨_, answers_matmul rfl, ?_⟩⟩
  rw [← setWidth_operand12]
  exact answers_matmul (by rw [operand12_setWidth, hinv])

/-- Settles O13: the parity of each row, and the product of all ones in both halves of the codeword. -/
theorem rowsHaveOddWeight : Obligations.RowsHaveOddWeight := by
  intro s hsym hinv
  have hones : matmul12 s.rom 0xFFF#12 = 0xFFF#12 := matmul12_allOnes hsym hinv
  refine ⟨fun i => ?_, answers_matmul (y := 0xFFF#12) hones, answers_encode (c := 0xFFFFFF#24) ?_⟩
  · have hrow : parity12 s.rom.rows[i] = true := parity12_matrixRow hsym hinv i
    rw [Nat.mod_two_of_bodd, bodd_wt, hrow, Bool.toNat_true]
  · have hoperand : operand12 0xFFF#32 = 0xFFF#12 := by decide
    rw [hoperand, encode24, hones]
    decide

/-- Settles O14: MATMUL of a unit vector is a row, and each half of self-duality. -/
theorem columnEqualsRow : Obligations.ColumnEqualsRow := by
  intro s hsym
  refine ⟨fun i => answers_matmul ?_, fun hinv => ⟨wt_encode24_and_encode24 hsym hinv, fun w h => ?_⟩⟩
  · rw [operand12_unit, matmul12_unitMsb hsym]
    rfl
  · have hhalves : w.extractLsb' 12 12 ++ w.extractLsb' 0 12 = w := BitVec.extractLsb'_append_extractLsb'
    rw [← hhalves] at h
    rw [← eq_encode24_of_orthogonal hsym hinv h, hhalves]

end Sys2Proof.Proofs
end

section
/-! Serving the FIFO: each request gets the response that it and the matrix call for, in the order accepted. Settles O33, O45
and O46. -/

namespace Sys2Proof.Proofs

open Sys2Proof.Machine Sys2Proof.Laws

/-- The word of an instruction decodes to it, operand included (R41, R47). -/
@[simp] theorem decode_encode (i : Instr) : decode (encode i) = i := by
  cases i <;> simp [decode, encode, reqOp_requestWord, reqOperand_requestWord, opOf, operandOf]

/-- Settles O33: the response of `exec_eq` reads the matrix and nothing else of the state. -/
theorem responseDependsOnRequestAndMatrixAlone : Obligations.ResponseDependsOnRequestAndMatrixAlone := by
  intro i s u hrom
  have hresponse : responseOf s.rom (encode i) = some (responseTo s.rom i) := by rw [responseOf_eq, decode_encode]
  exact ⟨_, _, _, exec_eq i s, hrom ▸ exec_eq i u, answerWith_rsp .., answerWith_rsp .., hresponse⟩

/-- The pair that a request adds to the transcript under a matrix. -/
def answeredPair (G : GenMatrix) (w : Req) : Req × Response :=
  (w, responseTo G (decode w))

/-- With nothing at the port, a step answers the oldest request (R88). -/
theorem step_of_pending_cons {s : State} {w : Req} {rest : List Req} (hport : s.port = [])
    (hpending : s.pending = w :: rest) :
    step s = .next (answerWith w (responseTo s.rom (decode w)) { s with pending := rest }) := by
  rw [step, nextTurn_of_nil hport, serveTurn_of_cons hpending, runTurn, exec_eq, encode_decode]

/-- A run goes on from where its first step leads. -/
theorem run_succ_of_step {M : Host.Core} {s t : M.State} (hstep : M.step s = .next t) (k : Nat) :
    M.run (k + 1) s = M.run k t := by
  rw [Host.Core.run, hstep]

/-- With nothing at the port, as many steps as requests are waiting answer them all, oldest first. -/
theorem run_serves_pending (ws : List Req) {s : State} (hport : s.port = []) (hpending : s.pending = ws) :
    ∃ t, Host.Core.run core ws.length s = .next t ∧ t.pending = [] ∧ t.port = [] ∧ t.rom = s.rom ∧
      t.transcript = s.transcript ++ ws.map (answeredPair s.rom) := by
  induction ws generalizing s with
  | nil => exact ⟨s, rfl, hpending, hport, rfl, by simp⟩
  | cons w rest ih =>
    obtain ⟨t, hrun, htPending, htPort, htRom, htTranscript⟩ :=
      ih (s := answerWith w (responseTo s.rom (decode w)) { s with pending := rest }) (by simpa using hport) (by simp)
    have hfirst := run_succ_of_step (M := core) (step_of_pending_cons hport hpending) rest.length
    exact ⟨t, hfirst.trans hrun, htPending, htPort, by simpa using htRom, by simpa [answeredPair] using htTranscript⟩

/-- Settles O45: the responses are those of `answeredPair`, request by request. -/
theorem everyAcceptedRequestIsAnsweredInOrder : Obligations.EveryAcceptedRequestIsAnsweredInOrder := by
  intro s hport
  obtain ⟨t, hrun, hpending, htPort, hrom, htranscript⟩ := run_serves_pending s.pending hport rfl
  have hzip : s.pending.zip (s.pending.map fun w => responseTo s.rom (decode w)) = s.pending.map (answeredPair s.rom) :=
    List.map_prod_left_eq_zip.symm
  refine ⟨t, s.pending.map fun w => responseTo s.rom (decode w), hrun, hpending, htPort, hrom, by simp,
    by rw [hzip, htranscript], fun p hp => ?_⟩
  rw [hzip] at hp
  obtain ⟨w, -, rfl⟩ := List.mem_map.mp hp
  exact responseOf_eq s.rom w

/-- Settles O46: each transcript gains the image of its own FIFO under one function of the request. -/
theorem anyOrderGivesTheSameResponses : Obligations.AnyOrderGivesTheSameResponses := by
  intro s u hsPort huPort hrom hperm
  obtain ⟨t, hrun, -, -, -, htranscript⟩ := run_serves_pending s.pending hsPort rfl
  obtain ⟨t', hrun', -, -, -, htranscript'⟩ := run_serves_pending u.pending huPort rfl
  rw [← hrom] at htranscript'
  have hrequests (ws : List Req) : (ws.map (answeredPair s.rom)).map Prod.fst = ws := by
    simp [answeredPair, Function.comp_def]
  exact ⟨t, t', _, _, hrun, hrun', htranscript, htranscript', hrequests _, hrequests _, hperm.map _⟩

end Sys2Proof.Proofs
end

section
/-! Words and instructions: request words, the rows of the opcode table that they match, and response words. Settles O1, O2, O3
and O4. -/

namespace Sys2Proof.Proofs

open Sys2Proof.Machine Sys2Proof.Laws

/-! ### Request words -/

/-- Every instruction is well formed (R45, R47). -/
theorem instr_wellFormed (i : Instr) : i.wellFormed = true := by
  cases i <;> rfl

/-- Settles O1: OP and OPERAND are the whole of an instruction and the whole of a word. -/
theorem decodeEncodeRoundTrip : Obligations.DecodeEncodeRoundTrip :=
  ⟨fun i => ⟨instr_wellFormed i, decode_encode i⟩, encode_decode⟩

/-- The rows that a word matches depend on its OP alone, because every row has the same mask (R43). -/
theorem matchingRows_requestWord (code : Op) (operand : Word32) :
    matchingRows (requestWord code operand) = matchingRows (requestWord code 0#32) := by
  have hmask : ∀ row ∈ opcodeTable, row.mask = 0x700000000#35 := by decide
  unfold matchingRows
  congr 1
  apply List.filter_congr
  intro row hrow
  rw [hmask row hrow, EncodesAsTable.masked_requestWord, EncodesAsTable.masked_requestWord]

/-- The word of an instruction matches the instruction's row alone (R43). -/
theorem matchingRows_encode (i : Instr) : matchingRows (encode i) = [mnemonicOf i] := by
  rw [encode, matchingRows_requestWord]
  cases i <;> simp only [opOf, mnemonicOf] <;> decide

/-- Settles O2: every word is the word of the instruction it decodes to. -/
theorem everyRequestMatchesItsRowAlone : Obligations.EveryRequestMatchesItsRowAlone := by
  intro w
  rw [← matchingRows_encode, encode_decode]

/-- Settles O3: each word is the word of the instruction. -/
theorem tableWordsDecode : Obligations.TableWordsDecode :=
  ⟨decode_encode (.bitparity 0xABC#32), decode_encode (.popcount 0x0012365F#32), decode_encode (.matmul 0xF123#32),
    decode_encode (.encode 0x123#32), decode_encode (.decode 0x92365E#32), decode_encode (.reserved5 0#32),
    decode_encode (.reserved6 0x123#32), decode_encode (.reserved7 0xFFFFFFFF#32)⟩

/-! ### Response words -/

/-- Bit 32 of RSP is ILLEGAL (R42). -/
@[simp] theorem getLsbD_responseWord_illegal (r : Response) : (responseWord r).getLsbD 32 = r.illegal :=
  BitVec.getLsbD_append.trans (by simp)

/-- Bits 31..0 of RSP are RESULT (R42). -/
@[simp] theorem extractLsb'_responseWord_result (r : Response) : (responseWord r).extractLsb' 0 32 = r.result :=
  BitVec.extractLsb'_append_eq_right

/-- A word RSP is its two fields. -/
theorem responseWord_responseOfWord (w : BitVec 33) : responseWord (responseOfWord w) = w := by
  apply BitVec.eq_of_getLsbD_eq
  intro k hk
  simp only [responseWord, responseOfWord, BitVec.getLsbD_append, BitVec.getLsbD_extractLsb']
  by_cases hresult : k < 32
  · simp [hresult]
  · obtain rfl : k = 32 := by omega
    simp

/-- Settles O4: the two fields of the word, read out and put together. -/
theorem responseWordRoundTrip : Obligations.ResponseWordRoundTrip :=
  ⟨fun r => ⟨getLsbD_responseWord_illegal r, extractLsb'_responseWord_result r⟩,
    fun r => by rw [responseOfWord, getLsbD_responseWord_illegal, extractLsb'_responseWord_result],
    responseWord_responseOfWord⟩

end Sys2Proof.Proofs
end

section
/-! What RESULT and ILLEGAL say of a request, and which bits of its operand they read. Settles O26, O27 and O31. -/

namespace Sys2Proof.Proofs

open Sys2Proof.Machine Sys2Proof.Laws

/-- A reserved opcode gets the illegal-operation response, under any matrix and on any operand (R47, R71). -/
theorem responseTo_of_reserved (G : GenMatrix) {i : Instr} (h : 5 ≤ (opOf i).toNat) :
    responseTo G i = illegalResponse := by
  cases i with
  | bitparity _ | popcount _ | matmul _ | encode _ | decode _ => simp [opOf] at h
  | reserved5 _ | reserved6 _ | reserved7 _ => rfl

/-- An instruction whose response has ILLEGAL = 0 answers it, and records no fault. -/
theorem answers_of_responseTo {i : Instr} {s : State} {r : Response} (h : responseTo s.rom i = r)
    (hlegal : r.illegal = false) : Answers i s r := by
  rw [Answers, exec_eq, h, answerWith, hlegal]
  rfl

/-- Settles O31: the response of `exec_eq`, with ILLEGAL by the opcode. -/
theorem illegalBitMeansReservedOpcode : Obligations.IllegalBitMeansReservedOpcode := by
  intro s w
  have hillegal : (responseTo s.rom (decode w)).illegal = true ↔ 5 ≤ (opOf (decode w)).toNat := by
    rw [responseTo_illegal, decide_eq_true_iff]
  refine ⟨_, responseTo s.rom (decode w), exec_eq _ _, answerWith_rsp .., by simp, ?_, fun h => ?_⟩
  · rw [hillegal, (opOf_decode w).1]
  · rw [responseTo_of_reserved _ (hillegal.mp h), illegalResponse]

/-- RESULT is the value, where its width is at most that of RESULT (R46). -/
theorem toNat_legalResponse_result {w : Nat} (hw : w ≤ 32) (v : BitVec w) : (legalResponse v).result.toNat = v.toNat :=
  BitVec.toNat_setWidth_of_le hw

/-- The count of set bits needs six bits, so none of it is cut off (R53). -/
theorem toNat_popcount32 (x : Word32) : (popcount32 x).toNat = wt x := by
  have hle : wt x ≤ 32 := wt_le_width x
  exact Nat.mod_eq_of_lt (by omega)

/-- A branch of DECODE gives a 12-bit message or ERR_RESULT (R62). -/
theorem branchValue_range (b : DecodeBranch) : (branchValue b).toNat ≤ 4095 ∨ (branchValue b).toNat = 0xFFFF := by
  have hmessage (m : Word12) : (m.setWidth 16).toNat ≤ 4095 := by
    have := m.isLt
    rw [BitVec.toNat_setWidth_of_le (by decide)]
    omega
  cases b with
  | step2 d => exact .inl (hmessage d)
  | step4 d2 => exact .inl (hmessage d2)
  | step5 i v => exact .inl (hmessage v)
  | step6 i d3 => exact .inl (hmessage d3)
  | step7 => exact .inr rfl

/-- Settles O27: RESULT is the value of each operation, which its width bounds. -/
theorem resultFitsItsWidth : Obligations.ResultFitsItsWidth := by
  intro s x
  refine ⟨⟨_, answers_of_responseTo rfl rfl, ?_⟩, ⟨_, answers_of_responseTo rfl rfl, ?_⟩,
    ⟨_, answers_of_responseTo rfl rfl, ?_⟩, ⟨_, answers_of_responseTo rfl rfl, ?_⟩,
    ⟨_, answers_of_responseTo rfl rfl, ?_⟩⟩ <;> rw [responseTo, toNat_legalResponse_result (by decide)]
  · exact BitVec.isLt _
  · rw [toNat_popcount32]
    exact wt_le_width _
  · exact BitVec.isLt _
  · exact BitVec.isLt _
  · exact branchValue_range _

/-- Settles O26: a response reads `operand12` or `operand24` of its operand, and a reserved one nothing. -/
theorem ignoredBitsHaveNoEffect : Obligations.IgnoredBitsHaveNoEffect := by
  intro s x y
  refine ⟨fun h12 => ?_, fun h24 => ?_, fun i hi => ?_⟩
  · have hoperand : operand12 y = operand12 x := h12.symm
    refine ⟨⟨_, answers_of_responseTo rfl rfl, answers_of_responseTo ?_ rfl⟩,
      ⟨_, answers_of_responseTo rfl rfl, answers_of_responseTo ?_ rfl⟩,
      ⟨_, answers_of_responseTo rfl rfl, answers_of_responseTo ?_ rfl⟩⟩ <;> simp only [responseTo, hoperand]
  · have hoperand : operand24 y = operand24 x := h24.symm
    exact ⟨_, answers_of_responseTo rfl rfl, answers_of_responseTo (by simp only [responseTo, hoperand]) rfl⟩
  · have hreserved : 5 ≤ (opOf i).toNat := by
      simp only [List.mem_cons, List.not_mem_nil, or_false] at hi
      rcases hi with rfl | rfl | rfl | rfl | rfl | rfl <;> simp [opOf]
    exact ⟨_, exec_eq i s, by rw [answerWith_rsp, responseTo_of_reserved _ hreserved, illegalResponse]⟩

end Sys2Proof.Proofs
end

section
/-! The two ways a request comes to the block, the port and the host's script, and the assembler that writes it. Settles O35,
O47 and O48. -/

namespace Sys2Proof.Proofs

open Sys2Proof.Machine Sys2Proof.Laws

/-! ### The port and the host -/

/-- Settles O35: the accept event at the port is `acceptRequest`. -/
theorem acceptJoinsLast : Obligations.AcceptJoinsLast := by
  intro s w es hport
  rw [step, nextTurn_of_cons hport, eventTurn, runTurn, acceptRequest]

/-- Whatever waits at the port, the oldest request can be answered next (log entry 14). -/
theorem serveOldest_of_pending_cons {s : State} {w : Req} {rest : List Req} (hpending : s.pending = w :: rest) :
    serveOldest s = .next (answerWith w (responseTo s.rom (decode w)) { s with pending := rest }) := by
  rw [serveOldest, serveTurn_of_cons hpending, runTurn, exec_eq, encode_decode]

/-- Serving goes on from where its first answer leads. -/
theorem serveMany_succ_of_serveOldest {s t : State} (h : serveOldest s = .next t) (k : Nat) :
    serveMany (k + 1) s = serveMany k t := by
  rw [serveMany, h]

/-- Serving until the last request waiting is answered leaves that request's response in RSP, after one response for each
request before it. -/
theorem serveMany_through_last (ws : List Req) (w : Req) {s : State} (hpending : s.pending = ws ++ [w]) :
    ∃ t, serveMany (ws.length + 1) s = .ok t ∧ t.pending = [] ∧ t.rsp = some (responseTo s.rom (decode w)) ∧
      t.transcript = s.transcript ++ ws.map (answeredPair s.rom) ++ [answeredPair s.rom w] := by
  induction ws generalizing s with
  | nil =>
    refine ⟨_, serveMany_succ_of_serveOldest (serveOldest_of_pending_cons hpending) 0, ?_⟩
    simp [answeredPair]
  | cons v ws ih =>
    have hfirst := serveMany_succ_of_serveOldest (serveOldest_of_pending_cons hpending) (ws.length + 1)
    obtain ⟨t, hserve, htPending, htRsp, htTranscript⟩ :=
      ih (s := answerWith v (responseTo s.rom (decode v)) { s with pending := ws ++ [w] }) (by simp)
    exact ⟨t, hfirst.trans hserve, htPending, by simpa using htRsp, by simpa [answeredPair] using htTranscript⟩

/-- A host gets the response that RSP carries when the requests waiting, its own among them, are answered (R88). -/
theorem transact_of_serveMany {w : Req} {s t : State} {r : Response}
    (hserve : serveMany (s.pending.length + 1) (acceptRequest w s) = .ok t) (hrsp : t.rsp = some r) :
    transact w s = .ok (t, r) := by
  simp [transact, hserve, hrsp, bind, Except.bind, pure, Except.pure]

/-- Settles O48: an issued request is the last one waiting. -/
theorem hostReceivesTheResponseOfItsRequest : Obligations.HostReceivesTheResponseOfItsRequest := by
  intro s w
  obtain ⟨t, hserve, hpending, hrsp, htranscript⟩ :=
    serveMany_through_last s.pending w (s := acceptRequest w s) (acceptRequest_pending w s)
  have hearlier : (s.pending.map (answeredPair s.rom)).map Prod.fst = s.pending := by
    simp [answeredPair, Function.comp_def]
  exact ⟨t, _, _, transact_of_serveMany hserve hrsp, responseOf_eq s.rom w, hearlier, htranscript, hpending⟩

/-! ### The assembler -/

/-- A word has bits set at or above position k exactly when its value is at least `2 ^ k`. -/
theorem and_not_lowBits_eq_zero_iff {k : Nat} (x m : Word32) (hm : m.toNat = 2 ^ k - 1) :
    x &&& ~~~m = 0#32 ↔ x.toNat < 2 ^ k := by
  have hsplit : x &&& ~~~m = x ^^^ (x &&& m) := by
    ext j
    simp only [BitVec.getElem_and, BitVec.getElem_not, BitVec.getElem_xor]
    cases x[j] <;> simp
  rw [hsplit, BitVec.xor_eq_zero_iff, ← BitVec.toNat_inj, BitVec.toNat_and, hm, Nat.and_two_pow_sub_one_eq_mod, eq_comm,
    Nat.mod_eq_iff_lt (by positivity)]

/-- An operation that reads the low k bits has ignored bits set exactly in an operand of at least `2 ^ k` (R44, R45). -/
theorem ignoredBitsSet_eq_decide {k : Nat} {i : Instr} (hmask : (readMask i).toNat = 2 ^ k - 1) :
    ignoredBitsSet i = decide (2 ^ k ≤ (operandOf i).toNat) := by
  rw [ignoredBitsSet, bne, beq_eq_decide, ← decide_not, decide_eq_decide, and_not_lowBits_eq_zero_iff _ _ hmask, not_lt]

/-- A mnemonic line with a literal above its field is refused (R49). -/
theorem assemble_op_of_literalTooWide {m : Mnemonic} {n : Nat} (hn : 2 ^ 32 ≤ n) :
    assemble (.op m n) = .error .literalTooWide := by
  rw [assemble, if_neg (Nat.not_lt.mpr hn)]

/-- A raw line with a literal above its field is refused (R49). -/
theorem assemble_raw_of_literalTooWide {code n : Nat} (hcode : code < 2 ^ 3) (hn : 2 ^ 32 ≤ n) :
    assemble (.raw code n) = .error .literalTooWide := by
  rw [assemble, if_pos hcode, if_neg (Nat.not_lt.mpr hn)]

/-- A raw line with an OP above its field is refused, whatever its literal (log entry 13). -/
theorem assemble_raw_of_opTooWide {code n : Nat} (hcode : 2 ^ 3 ≤ code) : assemble (.raw code n) = .error .opTooWide := by
  rw [assemble, if_neg (Nat.not_lt.mpr hcode)]

/-- A raw line with both fields in range (R49). -/
theorem assemble_raw {code n : Nat} (hcode : code < 2 ^ 3) (hn : n < 2 ^ 32) :
    assemble (.raw code n) = .ok ⟨requestWord (BitVec.ofNat 3 code) (BitVec.ofNat 32 n), false⟩ := by
  rw [assemble, if_pos hcode, if_pos hn]

/-- A mnemonic line whose operation reads the low k bits of its operand warns of a literal of at least `2 ^ k` (R44, R49). -/
theorem assemble_op_of_readMask {m : Mnemonic} {n k : Nat} (hn : n < 2 ^ 32)
    (hmask : (readMask (mnemonicInstr m (BitVec.ofNat 32 n))).toNat = 2 ^ k - 1) :
    assemble (.op m n) = .ok ⟨encode (mnemonicInstr m (BitVec.ofNat 32 n)), decide (2 ^ k ≤ n)⟩ := by
  have hoperand : operandOf (mnemonicInstr m (BitVec.ofNat 32 n)) = BitVec.ofNat 32 n := by cases m <;> rfl
  have htoNat : (BitVec.ofNat 32 n).toNat = n := Nat.mod_eq_of_lt hn
  rw [assemble, if_pos hn]
  simp only [ignoredBitsSet_eq_decide hmask, hoperand, htoNat]

/-- A mnemonic line of POPCOUNT, which reads its whole operand, never warns (R44, R49). -/
theorem assemble_popcount {n : Nat} (hn : n < 2 ^ 32) :
    assemble (.op .popcount n) = .ok ⟨encode (.popcount (BitVec.ofNat 32 n)), false⟩ := by
  have hfits : decide (2 ^ 32 ≤ n) = false := decide_eq_false (Nat.not_le.mpr hn)
  rw [assemble_op_of_readMask (k := 32) hn rfl, hfits, mnemonicInstr]

/-- The raw form writes every request, from its two fields (R49). -/
theorem assemble_raw_fields (w : Req) : assemble (.raw (reqOp w).toNat (reqOperand w).toNat) = .ok ⟨w, false⟩ := by
  rw [assemble_raw (reqOp w).isLt (reqOperand w).isLt, BitVec.ofNat_toNat, BitVec.ofNat_toNat, BitVec.setWidth_eq,
    BitVec.setWidth_eq, requestWord_fields]

/-- Settles O47: the warnings by each operation's mask, the refusals, and the raw form. -/
theorem assemblerWritesRequests : Obligations.AssemblerWritesRequests :=
  ⟨fun _ hn => ⟨assemble_op_of_readMask hn rfl, assemble_popcount hn, assemble_op_of_readMask hn rfl,
      assemble_op_of_readMask hn rfl, assemble_op_of_readMask hn rfl⟩,
    fun _ _ => assemble_op_of_literalTooWide, fun _ _ => assemble_raw, fun _ _ => assemble_raw_of_literalTooWide,
    fun _ _ => assemble_raw_of_opTooWide, fun w => ⟨_, _, assemble_raw_fields w⟩⟩

end Sys2Proof.Proofs
end

section
/-! The numeric primitives: the parity of twelve bits and its lookup form, the count of set bits, the matrix product, and the
syndrome. Settles O5, O6, O7, O8, O9 and O11. -/

namespace Sys2Proof.Proofs

open Sys2Proof.Machine Sys2Proof.Laws

/-! ### BITPARITY -/

/-- BITPARITY answers the parity of the bits it reads (R51). -/
theorem answers_bitparity {s : State} {x : Word32} {b : Bool} (h : parity12 (operand12 x) = b) :
    Answers (.bitparity x) s ⟨false, if b then 1#32 else 0#32⟩ := by
  refine answers_of_responseTo ?_ rfl
  rw [responseTo, h]
  cases b <;> rfl

/-- The parity tree decides whether the weight is odd (R10). -/
theorem parity12_eq_decide (x : Word12) : parity12 x = decide (wt x % 2 = 1) := by
  rw [Nat.mod_two_of_bodd, bodd_wt]
  cases parity12 x <;> rfl

/-- A parity in RESULT is a weight modulo 2. -/
theorem ofNat_wt_mod_two (x : Word12) : BitVec.ofNat 32 (wt x % 2) = if parity12 x then 1#32 else 0#32 := by
  rw [Nat.mod_two_of_bodd, bodd_wt]
  cases parity12 x <;> rfl

/-- The parity of the low twelve bits of an operand, as their XOR. -/
theorem parity12_operand12 (x : Word32) :
    parity12 (operand12 x) = (x.getLsbD 0 ^^ x.getLsbD 1 ^^ x.getLsbD 2 ^^ x.getLsbD 3 ^^ x.getLsbD 4 ^^ x.getLsbD 5 ^^
      x.getLsbD 6 ^^ x.getLsbD 7 ^^ x.getLsbD 8 ^^ x.getLsbD 9 ^^ x.getLsbD 10 ^^ x.getLsbD 11) := by
  simp [parity12, operand12]

/-- Settles O5: the answer is the parity, as the XOR of the bits and as their weight modulo 2. -/
theorem bitparityAnswers : Obligations.BitparityAnswers := by
  intro s x
  refine ⟨rfl, answers_bitparity (parity12_operand12 x), ?_, answers_bitparity (b := false) (by decide),
    answers_bitparity (b := false) (by decide), answers_bitparity (b := false) (by decide),
    answers_bitparity (b := false) (by decide), answers_bitparity (b := true) (by decide)⟩
  rw [ofNat_wt_mod_two]
  exact answers_bitparity rfl

/-- A word is its upper half above its lower half, so folding them keeps the parity of the weight (R52). -/
theorem wt_fold6_mod_two (x : Word12) : wt (fold6 x) % 2 = wt x % 2 := by
  have hhalves : x.extractLsb' 6 6 ++ x.extractLsb' 0 6 = x := BitVec.extractLsb'_append_extractLsb'
  rw [fold6, wt_mod_two_xor, ← wt_append, hhalves]

/-- The table holds the parity of each value (R52). -/
theorem getElem?_parityTable (v : BitVec 6) : parityTable[v.toNat]? = some (wt v % 2 == 1) := by
  simp [parityTable, v.isLt]

/-- The lookup form of BITPARITY gives the parity (R52). -/
theorem parityByTable_eq_parity12 (x : Word12) : parityByTable x = parity12 x := by
  rw [parityByTable, List.getD_eq_getElem?_getD, getElem?_parityTable, Option.getD_some, wt_fold6_mod_two,
    beq_eq_decide, parity12_eq_decide]

/-- The fold reads the same two fields of the operand. -/
theorem fold6_operand12 (x : Word32) : fold6 (operand12 x) = x.extractLsb' 6 6 ^^^ x.extractLsb' 0 6 := by
  rw [fold6, operand12, BitVec.extractLsb'_extractLsb'_of_le (by decide), BitVec.extractLsb'_extractLsb'_of_le (by decide)]

/-- Settles O6: the fold, the table, and the lookup as the answer. -/
theorem parityFoldingLaw : Obligations.ParityFoldingLaw := by
  refine ⟨fun x => (wt_fold6_mod_two x).symm, getElem?_parityTable, fun s x => ?_⟩
  rw [← fold6_operand12]
  exact answers_bitparity (parityByTable_eq_parity12 _).symm

/-! ### POPCOUNT -/

/-- POPCOUNT answers the weight of its whole operand (R53). -/
theorem answers_popcount {s : State} {x : Word32} {n : Nat} (h : wt x = n) :
    Answers (.popcount x) s ⟨false, BitVec.ofNat 32 n⟩ := by
  subst h
  refine answers_of_responseTo ?_ rfl
  have hle : wt x ≤ 32 := wt_le_width x
  have hresult : (popcount32 x).setWidth 32 = BitVec.ofNat 32 (wt x) := by
    apply BitVec.eq_of_toNat_eq
    rw [BitVec.toNat_setWidth_of_le (by decide), toNat_popcount32, BitVec.toNat_ofNat, Nat.mod_eq_of_lt (by omega)]
  rw [responseTo, operand32, legalResponse, placeResult, hresult]

/-- Settles O7: the answer is the weight, which the width bounds. -/
theorem popcountAnswers : Obligations.PopcountAnswers :=
  fun _ x => ⟨rfl, answers_popcount rfl, wt_le_width x, wt_le_width, answers_popcount (n := 0) (by decide),
    answers_popcount (n := 32) (by decide), answers_popcount (n := 1) (by decide), answers_popcount (n := 12) (by decide)⟩

/-! ### MATMUL -/

/-- The product of 0 is 0 (R55). -/
@[simp] theorem matmul12_zero (G : GenMatrix) : matmul12 G 0#12 = 0#12 := by
  simpa using matmul12_xor G 0#12 0#12

/-- REF's example (R22, R54). -/
theorem matmul12_refMatrix_example : matmul12 refMatrix 0x123#12 = 0x65F#12 := by
  decide

/-- Settles O8: the product bit by bit; twice by P2; all ones by R20 and unit vectors by R21. -/
theorem matmulAnswers : Obligations.MatmulAnswers := by
  intro s x
  refine ⟨rfl, ⟨matmul12 s.rom (operand12 x), answers_matmul rfl, fun i => ?_, fun hadm => ?_⟩,
    answers_matmul (y := 0#12) (matmul12_zero _), fun hadm => ?_, fun href => ?_⟩
  · rw [getLsbD_matmul12, parity12_eq_decide]
    rfl
  · exact answers_matmul (by rw [operand12_setWidth, hadm.involutive, operand12])
  · obtain ⟨-, hones, -⟩ := rowsHaveOddWeight s hadm.symmetric hadm.involutive
    obtain ⟨hunits, -⟩ := columnEqualsRow s hadm.symmetric
    exact ⟨hones, hunits⟩
  · have hback : matmul12 refMatrix 0x65F#12 = 0x123#12 := by
      rw [← matmul12_refMatrix_example, refMatrix_involutive]
    rw [← href] at hback
    exact ⟨answers_matmul (y := 0x65F#12) (href ▸ matmul12_refMatrix_example), answers_matmul (y := 0x123#12) hback⟩

/-- Reading the low twelve bits is additive. -/
theorem operand12_xor (x z : Word32) : operand12 (x ^^^ z) = operand12 x ^^^ operand12 z :=
  BitVec.extractLsb'_xor

/-- The bits above bit 11 are not read (R45). -/
theorem operand12_and_lowBits (x : Word32) : operand12 (x &&& 0xFFF#32) = operand12 x := by
  rw [← setWidth_operand12, operand12_setWidth]

/-- Settles O9: the product is additive on the bits that MATMUL reads. -/
theorem matmulIsLinear : Obligations.MatmulIsLinear := by
  intro s x z
  refine ⟨_, _, answers_matmul rfl, answers_matmul rfl, ?_, answers_matmul (y := 0#12) (matmul12_zero _),
    answers_matmul (by rw [operand12_and_lowBits])⟩
  rw [← BitVec.setWidth_xor]
  exact answers_matmul (by rw [operand12_xor, matmul12_xor])

/-! ### The syndrome -/

/-- The data half of a codeword is its message (R31). -/
@[simp] theorem dataHalf_encode24 (G : GenMatrix) (m : Word12) : dataHalf (encode24 G m) = m :=
  BitVec.extractLsb'_append_eq_left

/-- The parity half of a codeword is the product of its message (R31). -/
@[simp] theorem parityHalf_encode24 (G : GenMatrix) (m : Word12) : parityHalf (encode24 G m) = matmul12 G m :=
  BitVec.extractLsb'_append_eq_right

/-- A 24-bit word is its two halves (R31). -/
theorem dataHalf_append_parityHalf (c : Word24) : dataHalf c ++ parityHalf c = c :=
  BitVec.extractLsb'_append_extractLsb'

/-- The syndrome is additive. -/
theorem syndrome_xor (G : GenMatrix) (c e : Word24) : syndrome G (c ^^^ e) = syndrome G c ^^^ syndrome G e := by
  have : Std.Commutative (α := Word12) (· ^^^ ·) := ⟨BitVec.xor_comm⟩
  simp only [syndrome, dataHalf, parityHalf, BitVec.extractLsb'_xor, matmul12_xor]
  ac_rfl

/-- A codeword has syndrome 0 (R57). -/
@[simp] theorem syndrome_encode24 (G : GenMatrix) (m : Word12) : syndrome G (encode24 G m) = 0#12 := by
  rw [syndrome, dataHalf_encode24, parityHalf_encode24, BitVec.xor_self]

/-- A word with syndrome 0 is the codeword of its data half, and no other word is (R57). -/
theorem eq_encode24_iff_syndrome (G : GenMatrix) (r : Word24) : r = encode24 G (dataHalf r) ↔ syndrome G r = 0#12 := by
  refine ⟨fun h => by rw [h, syndrome_encode24], fun h => ?_⟩
  have hparity : parityHalf r = matmul12 G (dataHalf r) := BitVec.xor_eq_zero_iff.mp h
  rw [encode24, ← hparity, dataHalf_append_parityHalf]

/-- The syndrome of a received word is that of its error pattern (R57). -/
theorem syndrome_encode24_xor (G : GenMatrix) (m : Word12) (e : Word24) :
    syndrome G (encode24 G m ^^^ e) = syndrome G e := by
  rw [syndrome_xor, syndrome_encode24, BitVec.zero_xor]

/-- Under P2 the product of the syndrome is `MATMUL(p) ^ d` (R57). -/
theorem matmul12_syndrome {G : GenMatrix} (hinv : G.Involutive) (c : Word24) :
    matmul12 G (syndrome G c) = matmul12 G (parityHalf c) ^^^ dataHalf c := by
  rw [syndrome, matmul12_xor, hinv]

/-- Settles O11: the syndrome is additive and 0 on codewords, and its product is the second syndrome. -/
theorem syndromeLaw : Obligations.SyndromeLaw := by
  refine fun G => ⟨eq_encode24_iff_syndrome G, syndrome_encode24_xor G, fun hinv m e => ?_⟩
  rw [← matmul12_syndrome hinv, syndrome_encode24_xor]
  exact matmul12_syndrome hinv e

end Sys2Proof.Proofs
end

section
/-! The encoder: codewords as two halves, their weights, and what they weigh under REF. Settles O15 and O16. -/

namespace Sys2Proof.Proofs

open Sys2Proof.Machine Sys2Proof.Laws

/-! ### Weights -/

/-- The bits that two words share are the ones that an XOR loses, once from each. -/
theorem wt_xor_add_two_mul_wt_and {n : Nat} (x y : BitVec n) : wt (x ^^^ y) + 2 * wt (x &&& y) = wt x + wt y := by
  unfold wt
  generalize List.range n = l
  induction l with
  | nil => rfl
  | cons k l ih =>
    simp only [List.map_cons, List.sum_cons, BitVec.getLsbD_xor, BitVec.getLsbD_and] at ih ⊢
    cases x.getLsbD k <;> cases y.getLsbD k <;> simp <;> omega

/-- Complementing a 24-bit word complements its weight. -/
theorem wt_xor_allOnes (c : Word24) : wt (c ^^^ BitVec.allOnes 24) + wt c = 24 := by
  have hones : wt (BitVec.allOnes 24) = 24 := by decide
  have hlaw := wt_xor_add_two_mul_wt_and c (BitVec.allOnes 24)
  rw [BitVec.and_allOnes, hones] at hlaw
  omega

/-! ### Codewords -/

/-- The codeword of 0 is 0, under any matrix (R59). -/
@[simp] theorem encode24_zero (G : GenMatrix) : encode24 G 0#12 = 0#24 := by
  simpa using encode24_xor G 0#12 0#12

/-- Under P1 and P2 the codeword of all ones is all ones (R20). -/
theorem encode24_allOnes {G : GenMatrix} (hsym : G.Symmetric) (hinv : G.Involutive) :
    encode24 G (BitVec.allOnes 12) = BitVec.allOnes 24 := by
  rw [encode24, matmul12_allOnes hsym hinv]
  decide

/-- Under P1 the codeword of a unit vector is that bit above the matrix row (R59). -/
theorem encode24_unitMsb {G : GenMatrix} (hsym : G.Symmetric) (i : Fin 12) :
    encode24 G (unitMsb i) = 1#24 <<< (23 - i.val) ||| (matrixRow G i).setWidth 24 := by
  have hunit : BitVec.shiftLeftZeroExtend (unitMsb i) 12 = 1#24 <<< (23 - i.val) := by
    revert i; decide
  rw [encode24, matmul12_unitMsb hsym, BitVec.append_def, hunit, BitVec.setWidth'_eq]

/-- Under P1 and P2 every codeword has even weight: it is orthogonal to itself (R21, R59). -/
theorem wt_encode24_even {G : GenMatrix} (hsym : G.Symmetric) (hinv : G.Involutive) (m : Word12) :
    wt (encode24 G m) % 2 = 0 := by
  simpa using wt_encode24_and_encode24 hsym hinv m m

/-- Under P1 and P2 the codewords whose weight 4 divides are closed under XOR, because any two codewords share an even
number of bits. -/
theorem four_dvd_wt_encode24_xor {G : GenMatrix} (hsym : G.Symmetric) (hinv : G.Involutive) {a b : Word12}
    (ha : 4 ∣ wt (encode24 G a)) (hb : 4 ∣ wt (encode24 G b)) : 4 ∣ wt (encode24 G (a ^^^ b)) := by
  have hshared := wt_encode24_and_encode24 hsym hinv a b
  have hlaw := wt_xor_add_two_mul_wt_and (encode24 G a) (encode24 G b)
  rw [encode24_xor]
  omega

/-- Under P1 and P2 every selection of messages whose codewords' weights 4 divides is such a message. -/
theorem four_dvd_wt_encode24_selectXor {G : GenMatrix} (hsym : G.Symmetric) (hinv : G.Involutive) (bs : List Bool)
    {gs : List Word12} (hgs : ∀ g ∈ gs, 4 ∣ wt (encode24 G g)) : 4 ∣ wt (encode24 G (selectXor bs gs)) := by
  have hzero : 4 ∣ wt (encode24 G 0#12) := by
    rw [encode24_zero]; decide
  induction bs generalizing gs with
  | nil => simpa only [selectXor] using hzero
  | cons b bs ih =>
    cases gs with
    | nil => simpa only [selectXor] using hzero
    | cons g gs =>
      obtain ⟨hg, hrest⟩ := List.forall_mem_cons.mp hgs
      refine four_dvd_wt_encode24_xor hsym hinv ?_ (ih hrest)
      cases b
      · exact hzero
      · exact hg

/-- REF is doubly even: 4 divides the weight of each of its codewords. -/
theorem four_dvd_wt_encode24_refMatrix (m : Word12) : 4 ∣ wt (encode24 refMatrix m) := by
  have hunits : ∀ i : Fin 12, 4 ∣ wt (encode24 refMatrix (unitMsb i)) := by
    simp only [encode24, matmul12_unitMsb refMatrix_symmetric]
    decide
  rw [← selectXor_units m]
  refine four_dvd_wt_encode24_selectXor refMatrix_symmetric refMatrix_involutive _ fun g hg => ?_
  obtain ⟨i, -, rfl⟩ := List.mem_map.mp hg
  exact hunits i

/-- The weights under REF: multiples of 4, and by P3 none of 1 to 7, nor by complement of 17 to 23 (R59). -/
theorem wt_encode24_refMatrix_mem (m : Word12) : wt (encode24 refMatrix m) ∈ [0, 8, 12, 16, 24] := by
  have hones := encode24_allOnes refMatrix_symmetric refMatrix_involutive
  by_cases hzero : m = 0#12
  · rw [hzero, encode24_zero]; decide
  by_cases hall : m = BitVec.allOnes 12
  · rw [hall, hones]; decide
  have hfour := four_dvd_wt_encode24_refMatrix m
  have hlow : 8 ≤ wt (encode24 refMatrix m) := refMatrix_distance m hzero
  have hhigh : 8 ≤ wt (encode24 refMatrix (m ^^^ BitVec.allOnes 12)) :=
    refMatrix_distance _ (mt BitVec.xor_eq_zero_iff.mp hall)
  rw [encode24_xor, hones] at hhigh
  have hcomplement := wt_xor_allOnes (encode24 refMatrix m)
  simp only [List.mem_cons, List.not_mem_nil, or_false]
  omega

/-- REF's example (R58). -/
theorem encode24_refMatrix_example : encode24 refMatrix 0x123#12 = 0x12365F#24 := by
  rw [encode24, matmul12_refMatrix_example]
  decide

/-- Settles O15: the two halves of the codeword, the parity half bit by bit, all ones by R20. -/
theorem encodeAnswers : Obligations.EncodeAnswers := by
  intro s x
  have hexample : operand12 0x123#32 = 0x123#12 := by decide
  have hzero : operand12 0#32 = 0#12 := by decide
  have hones : operand12 0xFFFFFFFF#32 = operand12 0xFFF#32 := by decide
  refine ⟨rfl, ⟨matmul12 s.rom (operand12 x), answers_encode rfl, fun i => ?_⟩, answers_encode (c := 0#24) ?_,
    ⟨_, answers_encode rfl, answers_encode (by rw [hones])⟩, fun hadm => ?_,
    fun href => answers_encode (c := 0x12365F#24) ?_⟩
  · rw [getLsbD_matmul12, parity12_eq_decide]
    rfl
  · rw [hzero, encode24_zero]
  · obtain ⟨-, -, hall⟩ := rowsHaveOddWeight s hadm.symmetric hadm.involutive
    exact hall
  · rw [href, hexample, encode24_refMatrix_example]

/-- Settles O16: the codeword function is `encode24`. -/
theorem encodeLaws : Obligations.EncodeLaws := by
  intro s hadm
  refine ⟨encode24 s.rom, fun x => answers_encode rfl, dataHalf_encode24 s.rom, encode24_xor s.rom, encode24_zero s.rom,
    encode24_unitMsb hadm.symmetric, wt_encode24_even hadm.symmetric hadm.involutive, hadm.distance, fun href => ?_⟩
  have hlast : encode24 refMatrix (unitMsb 11) = 0x001FFE#24 := by
    rw [encode24_unitMsb refMatrix_symmetric]
    decide
  rw [href]
  exact ⟨hlast, wt_encode24_refMatrix_mem⟩

end Sys2Proof.Proofs
end

section
/-! The decoder: one equation per branch, the message that a branch names, and the answers of DECODE. Settles O18. -/

namespace Sys2Proof.Proofs

open Sys2Proof.Machine Sys2Proof.Laws

/-! ### The branches, one equation each (R60, R61) -/

/-- A search ends at the first index that it accepts (R61). -/
theorem findSome?_matrixIndices_of_first {α : Type} {f : Fin 12 → Option α} {i : Fin 12} {a : α} (hi : f i = some a)
    (hfirst : ∀ j < i, f j = none) : matrixIndices.findSome? f = some a := by
  have hsplit : ∀ i : Fin 12, matrixIndices = matrixIndices.take i ++ i :: matrixIndices.drop (i + 1) := by decide
  have hbefore : ∀ i : Fin 12, ∀ j ∈ matrixIndices.take i, j < i := by decide
  exact List.findSome?_eq_some_iff.mpr ⟨_, i, _, hsplit i, hi, fun j hj => hfirst j (hbefore i j hj)⟩

section Branches

variable {G : GenMatrix} {c : Word24} {d p p2 d2 : Word12} (hd : d = dataHalf c) (hp : p = parityHalf c)
  (hp2 : p2 = matmul12 G d) (hd2 : d2 = matmul12 G p)

include hd hp hp2

/-- Step 2 decides where its condition holds. -/
theorem decodeBranch_of_step2 (h2 : p2 = p ∨ wt (p ^^^ p2) ≤ 3) : decodeBranch G c = .step2 d := by
  subst hd hp hp2
  exact if_pos h2

include hd2

/-- Step 4 decides where its condition holds and step 2's does not. -/
theorem decodeBranch_of_step4 (h2 : ¬ (p2 = p ∨ wt (p ^^^ p2) ≤ 3)) (h4 : wt (d2 ^^^ d) ≤ 3) :
    decodeBranch G c = .step4 d2 := by
  subst hd hp hp2 hd2
  exact (if_neg h2).trans (if_pos h4)

/-- Where neither step 2 nor step 4 decides, the two searches do. -/
theorem decodeBranch_of_search (h2 : ¬ (p2 = p ∨ wt (p ^^^ p2) ≤ 3)) (h4 : ¬ wt (d2 ^^^ d) ≤ 3) :
    decodeBranch G c = ((searchData G d p p2).or (searchParity G d d2)).getD .step7 := by
  subst hd hp hp2 hd2
  exact (if_neg h2).trans (if_neg h4)

/-- Step 5 decides at the first index that meets its condition. -/
theorem decodeBranch_of_step5 (h2 : ¬ (p2 = p ∨ wt (p ^^^ p2) ≤ 3)) (h4 : ¬ wt (d2 ^^^ d) ≤ 3) {i : Fin 12}
    (h5 : wt (p2 ^^^ matrixRow G i ^^^ p) ≤ 2) (hfirst : ∀ j < i, ¬ wt (p2 ^^^ matrixRow G j ^^^ p) ≤ 2) :
    decodeBranch G c = .step5 i (d ^^^ unitMsb i) := by
  have hsearch : searchData G d p p2 = some (.step5 i (d ^^^ unitMsb i)) :=
    findSome?_matrixIndices_of_first (if_pos h5) fun j hj => if_neg (hfirst j hj)
  rw [decodeBranch_of_search hd hp hp2 hd2 h2 h4, hsearch, Option.some_or, Option.getD_some]

/-- Step 6 decides at the first index that meets its condition, where step 5 finds none. -/
theorem decodeBranch_of_step6 (h2 : ¬ (p2 = p ∨ wt (p ^^^ p2) ≤ 3)) (h4 : ¬ wt (d2 ^^^ d) ≤ 3)
    (h5 : ∀ i, ¬ wt (p2 ^^^ matrixRow G i ^^^ p) ≤ 2) {i : Fin 12} (h6 : wt (d2 ^^^ matrixRow G i ^^^ d) ≤ 2)
    (hfirst : ∀ j < i, ¬ wt (d2 ^^^ matrixRow G j ^^^ d) ≤ 2) :
    decodeBranch G c = .step6 i (d2 ^^^ matrixRow G i) := by
  have hnone : searchData G d p p2 = none := List.findSome?_eq_none_iff.mpr fun i _ => if_neg (h5 i)
  have hsearch : searchParity G d d2 = some (.step6 i (d2 ^^^ matrixRow G i)) :=
    findSome?_matrixIndices_of_first (if_pos h6) fun j hj => if_neg (hfirst j hj)
  rw [decodeBranch_of_search hd hp hp2 hd2 h2 h4, hnone, hsearch, Option.none_or, Option.getD_some]

/-- Step 7 is reached where no condition holds. -/
theorem decodeBranch_of_step7 (h2 : ¬ (p2 = p ∨ wt (p ^^^ p2) ≤ 3)) (h4 : ¬ wt (d2 ^^^ d) ≤ 3)
    (h5 : ∀ i, ¬ wt (p2 ^^^ matrixRow G i ^^^ p) ≤ 2) (h6 : ∀ i, ¬ wt (d2 ^^^ matrixRow G i ^^^ d) ≤ 2) :
    decodeBranch G c = .step7 := by
  have hnone : searchData G d p p2 = none := List.findSome?_eq_none_iff.mpr fun i _ => if_neg (h5 i)
  have hnone' : searchParity G d d2 = none := List.findSome?_eq_none_iff.mpr fun i _ => if_neg (h6 i)
  rw [decodeBranch_of_search hd hp hp2 hd2 h2 h4, hnone, hnone', Option.none_or, Option.getD_none]

end Branches

/-! ### The message of a branch -/

/-- The message that a branch of DECODE names, if it names one. -/
def branchMessage : DecodeBranch → Option Word12
  | .step2 m | .step4 m | .step5 _ m | .step6 _ m => some m
  | .step7 => none

/-- A branch that names a message gives it as its value. -/
theorem branchValue_of_message {b : DecodeBranch} {m : Word12} (h : branchMessage b = some m) :
    branchValue b = m.setWidth 16 := by
  cases b with
  | step2 | step4 | step5 | step6 => obtain rfl := Option.some.inj h; rfl
  | step7 => cases h

/-- A message is never ERR_RESULT (R62). -/
theorem setWidth_ne_errResult (m : Word12) : m.setWidth 16 ≠ errResult := by
  intro h
  have hvalue : m.toNat = 0xFFFF := by
    rw [← BitVec.toNat_setWidth_of_le (w' := 16) (by decide), h, errResult]
    rfl
  omega

/-- ERR_RESULT is the value of step 7 alone (R62). -/
theorem branchValue_eq_errResult_iff (b : DecodeBranch) : branchValue b = errResult ↔ b = .step7 := by
  cases b with
  | step2 m | step4 m | step5 i m | step6 i m => simp [branchValue, setWidth_ne_errResult]
  | step7 => simp [branchValue]

/-! ### The answers of DECODE -/

/-- DECODE answers the decoder's value of the bits it reads (R60). -/
theorem answers_decode {s : State} {x : Word32} {v : BitVec 16} (h : decode24 s.rom (operand24 x) = v) :
    Answers (.decode x) s ⟨false, v.setWidth 32⟩ := by
  subst h; rfl

/-- A message in RESULT. -/
theorem answers_decode_message {s : State} {x : Word32} {m : Word12} (h : decode24 s.rom (operand24 x) = m.setWidth 16) :
    Answers (.decode x) s ⟨false, m.setWidth 32⟩ := by
  rw [← BitVec.setWidth_setWidth (v := 16) (by decide)]
  exact answers_decode h

/-- The data half of what DECODE reads. -/
theorem dataHalf_operand24 (x : Word32) : dataHalf (operand24 x) = x.extractLsb' 12 12 :=
  BitVec.extractLsb'_extractLsb'_of_le (by decide)

/-- The parity half of what DECODE reads. -/
theorem parityHalf_operand24 (x : Word32) : parityHalf (operand24 x) = x.extractLsb' 0 12 :=
  BitVec.extractLsb'_extractLsb'_of_le (by decide)

/-- The operand of a 24-bit word. -/
theorem operand24_setWidth (c : Word24) : operand24 (c.setWidth 32) = c := by
  rw [operand24, ← BitVec.setWidth_eq_extractLsb' (by decide), BitVec.setWidth_setWidth_of_le _ (by decide),
    BitVec.setWidth_eq]

/-- The bits above bit 23 are not read (R44, R45). -/
theorem operand24_and_lowBits (x : Word32) : operand24 (x &&& 0xFFFFFF#32) = operand24 x := by
  have hmask : (0xFFFFFF#32).extractLsb' 0 24 = BitVec.allOnes 24 := by decide
  rw [operand24, BitVec.extractLsb'_and, hmask, BitVec.and_allOnes, operand24]

/-- Settles O18: a branch's value is ERR_RESULT at step 7 alone, and else a 12-bit message. -/
theorem errorResultOnlyFromStepSeven : Obligations.ErrorResultOnlyFromStepSeven := by
  intro s x
  refine ⟨_, answers_decode rfl, branchValue_eq_errResult_iff _, fun hvalue => ?_⟩
  rcases branchValue_range (decodeBranch s.rom (operand24 x)) with hmessage | herror
  · exact hmessage
  · exact absurd (BitVec.eq_of_toNat_eq herror) hvalue

end Sys2Proof.Proofs
end

section
/-! What each branch of the decoder says of the error, and the decoder as the bounded-distance decoder of radius 3. Settles O19,
O20, O21, O22 and O23. -/

namespace Sys2Proof.Proofs

open Sys2Proof.Machine Sys2Proof.Laws

/-! ### The error of a received word -/

/-- The data half of an error: `d ^ m` (R31). -/
theorem dataHalf_xor_encode24 (G : GenMatrix) (c : Word24) (m : Word12) :
    dataHalf (c ^^^ encode24 G m) = dataHalf c ^^^ m := by
  conv_rhs => rw [← dataHalf_encode24 G m]
  exact BitVec.extractLsb'_xor

/-- The parity half of an error: `p ^ MATMUL(m)` (R31). -/
theorem parityHalf_xor_encode24 (G : GenMatrix) (c : Word24) (m : Word12) :
    parityHalf (c ^^^ encode24 G m) = parityHalf c ^^^ matmul12 G m := by
  conv_rhs => rw [← parityHalf_encode24 G m]
  exact BitVec.extractLsb'_xor

/-- The weight of a 24-bit word, half by half. -/
theorem wt_eq_wt_halves (c : Word24) : wt c = wt (dataHalf c) + wt (parityHalf c) := by
  conv_lhs => rw [← dataHalf_append_parityHalf c]
  exact wt_append ..

/-- A unit vector weighs 1. -/
@[simp] theorem wt_unitMsb (i : Fin 12) : wt (unitMsb i) = 1 := by
  revert i; decide

/-- A word of weight 1 is a unit vector: a set bit of it is all of it. -/
theorem exists_eq_unitMsb_of_wt_eq_one {v : Word12} (h : wt v = 1) : ∃ i, v = unitMsb i := by
  obtain ⟨i, hi⟩ : ∃ i : Fin 12, v.getLsbD (11 - i.val) = true := by
    by_contra hnone
    have hzero : v = 0#12 := eq_of_msbBits fun i => by simpa using fun hbit => hnone ⟨i, hbit⟩
    simp [(wt_eq_zero_iff v).mpr hzero] at h
  have hand : v &&& unitMsb i = unitMsb i := by
    rw [eq_unitMsb_iff]
    intro j
    rw [BitVec.getLsbD_and, (eq_unitMsb_iff _ i).mp rfl j]
    by_cases hj : j = i <;> simp [hj, hi]
  have hlaw := wt_xor_add_two_mul_wt_and v (unitMsb i)
  rw [hand, h, wt_unitMsb] at hlaw
  exact ⟨i, BitVec.xor_eq_zero_iff.mp ((wt_eq_zero_iff _).mp (by omega))⟩

/-- Under P1 and P2 the product of a row is a unit vector. -/
theorem matmul12_matrixRow {G : GenMatrix} (hsym : G.Symmetric) (hinv : G.Involutive) (i : Fin 12) :
    matmul12 G (matrixRow G i) = unitMsb i := by
  rw [← matmul12_unitMsb hsym, hinv]

/-! The word that a step weighs is half of the error of the codeword whose message the step would give (R64). -/

section StepWords

variable {G : GenMatrix} {c : Word24} {m : Word12}

/-- Step 2 weighs the parity half, where the data half has no error. -/
theorem step2_word (h : dataHalf (c ^^^ encode24 G m) = 0#12) :
    parityHalf c ^^^ matmul12 G (dataHalf c) = parityHalf (c ^^^ encode24 G m) := by
  rw [dataHalf_xor_encode24, BitVec.xor_eq_zero_iff] at h
  rw [parityHalf_xor_encode24, h]

/-- Step 4 weighs the data half, where the parity half has no error. -/
theorem step4_word (hinv : G.Involutive) (h : parityHalf (c ^^^ encode24 G m) = 0#12) :
    matmul12 G (parityHalf c) ^^^ dataHalf c = dataHalf (c ^^^ encode24 G m) := by
  rw [parityHalf_xor_encode24, BitVec.xor_eq_zero_iff] at h
  rw [dataHalf_xor_encode24, h, hinv, BitVec.xor_comm]

/-- Step 5 weighs the parity half, where the data half is wrong in the bit of index i alone. -/
theorem step5_word (hsym : G.Symmetric) {i : Fin 12} (h : dataHalf (c ^^^ encode24 G m) = unitMsb i) :
    matmul12 G (dataHalf c) ^^^ matrixRow G i ^^^ parityHalf c = parityHalf (c ^^^ encode24 G m) := by
  rw [← matmul12_unitMsb hsym, ← h, dataHalf_xor_encode24, matmul12_xor, xor_cancel_left, parityHalf_xor_encode24,
    BitVec.xor_comm]

/-- Step 6 weighs the data half, where the parity half is wrong in the bit of index i alone. -/
theorem step6_word (hsym : G.Symmetric) (hinv : G.Involutive) {i : Fin 12}
    (h : parityHalf (c ^^^ encode24 G m) = unitMsb i) :
    matmul12 G (parityHalf c) ^^^ matrixRow G i ^^^ dataHalf c = dataHalf (c ^^^ encode24 G m) := by
  rw [← matmul12_unitMsb hsym, ← h, parityHalf_xor_encode24, matmul12_xor, hinv, xor_cancel_left, dataHalf_xor_encode24,
    BitVec.xor_comm]

/-- Where step 2's condition fails, no codeword with c's data half is near. -/
theorem lt_wt_parityHalf_of_not_step2
    (h2 : ¬ (matmul12 G (dataHalf c) = parityHalf c ∨ wt (parityHalf c ^^^ matmul12 G (dataHalf c)) ≤ 3))
    (h : wt (dataHalf (c ^^^ encode24 G m)) = 0) : 3 < wt (parityHalf (c ^^^ encode24 G m)) := by
  rw [← step2_word ((wt_eq_zero_iff _).mp h)]
  exact Nat.lt_of_not_le (not_or.mp h2).2

/-- Where step 4's condition fails, no codeword with c's parity half is near. -/
theorem lt_wt_dataHalf_of_not_step4 (hinv : G.Involutive) (h4 : ¬ wt (matmul12 G (parityHalf c) ^^^ dataHalf c) ≤ 3)
    (h : wt (parityHalf (c ^^^ encode24 G m)) = 0) : 3 < wt (dataHalf (c ^^^ encode24 G m)) := by
  rw [← step4_word hinv ((wt_eq_zero_iff _).mp h)]
  exact Nat.lt_of_not_le h4

/-- Where step 5's condition fails for every index, no codeword that differs from c in one data bit is near. -/
theorem lt_wt_parityHalf_of_not_step5 (hsym : G.Symmetric)
    (h5 : ∀ i, ¬ wt (matmul12 G (dataHalf c) ^^^ matrixRow G i ^^^ parityHalf c) ≤ 2)
    (h : wt (dataHalf (c ^^^ encode24 G m)) = 1) : 2 < wt (parityHalf (c ^^^ encode24 G m)) := by
  obtain ⟨i, hi⟩ := exists_eq_unitMsb_of_wt_eq_one h
  rw [← step5_word hsym hi]
  exact Nat.lt_of_not_le (h5 i)

/-- Where step 6's condition fails for every index, no codeword that differs from c in one parity bit is near. -/
theorem lt_wt_dataHalf_of_not_step6 (hsym : G.Symmetric) (hinv : G.Involutive)
    (h6 : ∀ i, ¬ wt (matmul12 G (parityHalf c) ^^^ matrixRow G i ^^^ dataHalf c) ≤ 2)
    (h : wt (parityHalf (c ^^^ encode24 G m)) = 1) : 2 < wt (dataHalf (c ^^^ encode24 G m)) := by
  obtain ⟨i, hi⟩ := exists_eq_unitMsb_of_wt_eq_one h
  rw [← step6_word hsym hinv hi]
  exact Nat.lt_of_not_le (h6 i)

/-- The message of step 5 is wrong in the bit of index i alone. -/
theorem dataHalf_xor_encode24_step5 (G : GenMatrix) (c : Word24) (i : Fin 12) :
    dataHalf (c ^^^ encode24 G (dataHalf c ^^^ unitMsb i)) = unitMsb i := by
  rw [dataHalf_xor_encode24, xor_cancel_left]

/-- Step 5 never meets weight 0: step 4 would have decided (R60). -/
theorem step5_word_wt_ne_zero (hsym : G.Symmetric) (hinv : G.Involutive)
    (h4 : ¬ wt (matmul12 G (parityHalf c) ^^^ dataHalf c) ≤ 3) (i : Fin 12) :
    wt (matmul12 G (dataHalf c) ^^^ matrixRow G i ^^^ parityHalf c) ≠ 0 := by
  have hdata := dataHalf_xor_encode24_step5 G c i
  rw [step5_word hsym hdata]
  intro hzero
  have hfar := lt_wt_dataHalf_of_not_step4 hinv h4 hzero
  rw [hdata, wt_unitMsb] at hfar
  omega

end StepWords

/-! ### R64's table -/

/-- R64's table: the errors that each branch decides on. -/
def TableRow (e : Word24) : DecodeBranch → Prop
  | .step2 _ => wt (dataHalf e) = 0 ∧ wt (parityHalf e) ≤ 3
  | .step4 _ => 1 ≤ wt (dataHalf e) ∧ wt (dataHalf e) ≤ 3 ∧ wt (parityHalf e) = 0
  | .step5 i _ => dataHalf e = unitMsb i ∧ 1 ≤ wt (parityHalf e) ∧ wt (parityHalf e) ≤ 2
  | .step6 i _ => wt (dataHalf e) = 2 ∧ parityHalf e = unitMsb i
  | .step7 => False

/-- A branch of the table decides on an error of weight at most 3. -/
theorem wt_le_three_of_tableRow {e : Word24} {b : DecodeBranch} (h : TableRow e b) : wt e ≤ 3 := by
  rw [wt_eq_wt_halves]
  cases b with
  | step2 m => obtain ⟨hdata, hparity⟩ := h; omega
  | step4 m => obtain ⟨-, hdata, hparity⟩ := h; omega
  | step5 i m => obtain ⟨hdata, -, hparity⟩ := h; rw [hdata, wt_unitMsb]; omega
  | step6 i m => obtain ⟨hdata, hparity⟩ := h; rw [hparity, wt_unitMsb]; omega
  | step7 => exact h.elim

/-- Under P1 and P2 DECODE names the message of a near codeword, at the branch where the table has its error; or it reaches step
7 and no codeword is near. -/
theorem decodeBranch_table {G : GenMatrix} (hsym : G.Symmetric) (hinv : G.Involutive) (c : Word24) :
    (∃ m, branchMessage (decodeBranch G c) = some m ∧ TableRow (c ^^^ encode24 G m) (decodeBranch G c)) ∨
      (decodeBranch G c = .step7 ∧ ∀ m, 3 < wt (c ^^^ encode24 G m)) := by
  obtain ⟨hb, h2⟩ | ⟨h2, ⟨hb, h4⟩ | ⟨h4, ⟨i, hb, h5⟩ | ⟨h5, ⟨i, hb, h6⟩ | ⟨hb, h6⟩⟩⟩⟩ :=
    decodeBranch_cases G c rfl rfl rfl rfl <;> rw [hb]
  · have hdata : dataHalf (c ^^^ encode24 G (dataHalf c)) = 0#12 := by rw [dataHalf_xor_encode24, BitVec.xor_self]
    refine .inl ⟨_, rfl, (wt_eq_zero_iff _).mpr hdata, ?_⟩
    rw [← step2_word hdata]
    rcases h2 with heq | hle
    · rw [heq, BitVec.xor_self, (wt_eq_zero_iff _).mpr rfl]
      omega
    · exact hle
  · have hparity : parityHalf (c ^^^ encode24 G (matmul12 G (parityHalf c))) = 0#12 := by
      rw [parityHalf_xor_encode24, hinv, BitVec.xor_self]
    have hfar := lt_wt_parityHalf_of_not_step2 (m := matmul12 G (parityHalf c)) h2
    have hzero := (wt_eq_zero_iff _).mpr hparity
    rw [step4_word hinv hparity] at h4
    exact .inl ⟨_, rfl, by omega, h4, hzero⟩
  · have hdata := dataHalf_xor_encode24_step5 G c i
    have hne := step5_word_wt_ne_zero hsym hinv h4 i
    rw [step5_word hsym hdata] at h5 hne
    exact .inl ⟨_, rfl, hdata, Nat.pos_of_ne_zero hne, h5⟩
  · have hparity : parityHalf (c ^^^ encode24 G (matmul12 G (parityHalf c) ^^^ matrixRow G i)) = unitMsb i := by
      rw [parityHalf_xor_encode24, matmul12_xor, hinv, matmul12_matrixRow hsym hinv, xor_cancel_left]
    have hfar2 := lt_wt_parityHalf_of_not_step2 (m := matmul12 G (parityHalf c) ^^^ matrixRow G i) h2
    have hfar5 := lt_wt_parityHalf_of_not_step5 (m := matmul12 G (parityHalf c) ^^^ matrixRow G i) hsym h5
    rw [hparity, wt_unitMsb] at hfar2 hfar5
    rw [step6_word hsym hinv hparity] at h6
    exact .inl ⟨_, rfl, by omega, hparity⟩
  · refine .inr ⟨rfl, fun m => ?_⟩
    have hfar2 := lt_wt_parityHalf_of_not_step2 (m := m) h2
    have hfar4 := lt_wt_dataHalf_of_not_step4 (m := m) hinv h4
    have hfar5 := lt_wt_parityHalf_of_not_step5 (m := m) hsym h5
    have hfar6 := lt_wt_dataHalf_of_not_step6 (m := m) hsym hinv h6
    rw [wt_eq_wt_halves]
    omega

/-- Settles O19: the branch of the table, whose error weighs at most 3. -/
theorem decodeIsSound : Obligations.DecodeIsSound := by
  intro s hsym hinv x
  refine ⟨_, answers_decode rfl, fun hvalue => ?_⟩
  rcases decodeBranch_table hsym hinv (operand24 x) with ⟨m, hm, hrow⟩ | ⟨hb, -⟩
  · exact ⟨m, branchValue_of_message hm, wt_le_three_of_tableRow hrow⟩
  · exact absurd ((branchValue_eq_errResult_iff _).mpr hb) hvalue

/-! ### Bounded distance -/

/-- By P3 two codewords less than 8 apart have one message (R19). -/
theorem eq_of_wt_encode24_xor_lt {G : GenMatrix} (hdist : G.DistanceEight) {a b : Word12}
    (h : wt (encode24 G a ^^^ encode24 G b) < 8) : a = b := by
  rw [← encode24_xor] at h
  by_contra hne
  exact Nat.not_le_of_lt h (hdist _ (mt BitVec.xor_eq_zero_iff.mp hne))

/-- A word XORed onto both sides of an XOR cancels. -/
theorem xor_xor_xor_cancel {n : Nat} (a x y : BitVec n) : a ^^^ x ^^^ (a ^^^ y) = x ^^^ y := by
  rw [BitVec.xor_comm a, BitVec.xor_assoc, xor_cancel_left]

/-- Two codewords are no further apart than through a third word. -/
theorem wt_encode24_xor_le (G : GenMatrix) (c : Word24) (a b : Word12) :
    wt (encode24 G a ^^^ encode24 G b) ≤ wt (c ^^^ encode24 G a) + wt (c ^^^ encode24 G b) := by
  rw [← xor_xor_xor_cancel c]
  exact wt_xor_le ..

/-- Under P3 at most one codeword is within distance 3 (R64). -/
theorem message_unique_of_near {G : GenMatrix} (hdist : G.DistanceEight) {c : Word24} {a b : Word12}
    (ha : wt (c ^^^ encode24 G a) ≤ 3) (hb : wt (c ^^^ encode24 G b) ≤ 3) : a = b := by
  have hle := wt_encode24_xor_le G c a b
  exact eq_of_wt_encode24_xor_lt hdist (by omega)

/-- The decision on a word within distance 3 of a codeword: its message, at the branch of the table (R64). -/
theorem decodeBranch_of_near {G : GenMatrix} (hadm : G.Admissible) {c : Word24} {m : Word12}
    (h : wt (c ^^^ encode24 G m) ≤ 3) :
    branchMessage (decodeBranch G c) = some m ∧ TableRow (c ^^^ encode24 G m) (decodeBranch G c) := by
  rcases decodeBranch_table hadm.symmetric hadm.involutive c with ⟨m', hm', hrow⟩ | ⟨-, hfar⟩
  · obtain rfl := message_unique_of_near hadm.distance h (wt_le_three_of_tableRow hrow)
    exact ⟨hm', hrow⟩
  · exact absurd h (Nat.not_le_of_lt (hfar m))

/-- The value for a word within distance 3 of a codeword (R64). -/
theorem decode24_of_near {G : GenMatrix} (hadm : G.Admissible) {c : Word24} {m : Word12}
    (h : wt (c ^^^ encode24 G m) ≤ 3) : decode24 G c = m.setWidth 16 := by
  obtain ⟨hmessage, -⟩ := decodeBranch_of_near hadm h
  exact branchValue_of_message hmessage

/-- The value for a word that is near no codeword (R64). -/
theorem decode24_of_far {G : GenMatrix} (hsym : G.Symmetric) (hinv : G.Involutive) {c : Word24}
    (h : ∀ m, 3 < wt (c ^^^ encode24 G m)) : decode24 G c = errResult := by
  rcases decodeBranch_table hsym hinv c with ⟨m, -, hrow⟩ | ⟨hb, -⟩
  · exact absurd (wt_le_three_of_tableRow hrow) (Nat.not_le_of_lt (h m))
  · exact (branchValue_eq_errResult_iff _).mpr hb

/-- Settles O20: the value of a near word and of a far one, and P3 for uniqueness. -/
theorem decodeIsBoundedDistance : Obligations.DecodeIsBoundedDistance :=
  fun _ hadm _ => ⟨fun _ hm => ⟨answers_decode_message (decode24_of_near hadm hm),
      fun _ hm' => message_unique_of_near hadm.distance hm' hm⟩,
    fun hfar => answers_decode (decode24_of_far hadm.symmetric hadm.involutive hfar)⟩

/-- Taking the codeword off a received word leaves the error. -/
@[simp] theorem encode24_xor_xor_cancel (G : GenMatrix) (m : Word12) (e : Word24) :
    encode24 G m ^^^ e ^^^ encode24 G m = e := by
  rw [BitVec.xor_comm (encode24 G m), xor_cancel_right]

/-- The weights of the two halves of an error rule out every branch of the table but one. -/
theorem branch_of_tableRow {e : Word24} {b : DecodeBranch} {m : Word12} (hmessage : branchMessage b = some m)
    (hrow : TableRow e b) :
    (wt (dataHalf e) = 0 → b = .step2 m) ∧
    (1 ≤ wt (dataHalf e) → wt (parityHalf e) = 0 → b = .step4 m) ∧
    (wt (dataHalf e) = 1 → 1 ≤ wt (parityHalf e) → ∃ i, dataHalf e = unitMsb i ∧ b = .step5 i m) ∧
    (wt (dataHalf e) = 2 → wt (parityHalf e) = 1 → ∃ i, parityHalf e = unitMsb i ∧ b = .step6 i m) := by
  cases b with
  | step2 =>
    obtain rfl := Option.some.inj hmessage
    obtain ⟨hdata, -⟩ := hrow
    exact ⟨fun _ => rfl, by omega, by omega, by omega⟩
  | step4 =>
    obtain rfl := Option.some.inj hmessage
    obtain ⟨hdata, -, hparity⟩ := hrow
    exact ⟨by omega, fun _ _ => rfl, by omega, by omega⟩
  | step5 i =>
    obtain rfl := Option.some.inj hmessage
    obtain ⟨hdata, hparity, -⟩ := hrow
    have hweight : wt (dataHalf e) = 1 := hdata ▸ wt_unitMsb i
    exact ⟨by omega, by omega, fun _ _ => ⟨i, hdata, rfl⟩, by omega⟩
  | step6 i =>
    obtain rfl := Option.some.inj hmessage
    obtain ⟨hdata, hparity⟩ := hrow
    have hweight : wt (parityHalf e) = 1 := hparity ▸ wt_unitMsb i
    exact ⟨by omega, by omega, by omega, fun _ _ => ⟨i, hparity, rfl⟩⟩
  | step7 => exact hrow.elim

/-- The decision on a codeword with an error whose halves weigh at most 3 together (R64). -/
theorem decodeBranch_of_error {G : GenMatrix} (hadm : G.Admissible) (m : Word12) {e : Word24}
    (he : wt (dataHalf e) + wt (parityHalf e) ≤ 3) :
    branchMessage (decodeBranch G (encode24 G m ^^^ e)) = some m ∧ TableRow e (decodeBranch G (encode24 G m ^^^ e)) := by
  rw [← wt_eq_wt_halves, ← encode24_xor_xor_cancel G m e] at he
  have hnear := decodeBranch_of_near hadm he
  rwa [encode24_xor_xor_cancel] at hnear

/-- Settles O21: an error of weight at most 3 has a row of the table, which its weights select. -/
theorem firstStepThatFires : Obligations.FirstStepThatFires := by
  intro G hadm m e
  refine ⟨fun (hdata : wt (dataHalf e) = 0) (hparity : wt (parityHalf e) ≤ 3) => ?_,
    fun (hdata : 1 ≤ wt (dataHalf e)) (hle : wt (dataHalf e) ≤ 3) (hparity : wt (parityHalf e) = 0) => ?_,
    fun (hdata : wt (dataHalf e) = 1) (hparity : 1 ≤ wt (parityHalf e)) (hle : wt (parityHalf e) ≤ 2) => ?_,
    fun (hdata : wt (dataHalf e) = 2) (hparity : wt (parityHalf e) = 1) => ?_⟩
  all_goals
    obtain ⟨hmessage, hrow⟩ := decodeBranch_of_error hadm m (e := e) (by omega)
    obtain ⟨h2, h4, h5, h6⟩ := branch_of_tableRow hmessage hrow
  · exact h2 hdata
  · exact h4 hdata hparity
  · exact h5 hdata hparity
  · exact h6 hdata hparity

/-- A message in an operand of ENCODE. -/
theorem answers_encode_message (s : State) (m : Word12) :
    Answers (.encode (m.setWidth 32)) s ⟨false, (encode24 s.rom m).setWidth 32⟩ :=
  answers_encode (by rw [operand12_setWidth])

/-- Under P1 to P3 DECODE of a codeword with at most three bits flipped answers the message (R65). -/
theorem answers_decode_of_wt_le_three {s : State} (hadm : s.rom.Admissible) (m : Word12) {e : Word24} (he : wt e ≤ 3) :
    Answers (.decode ((encode24 s.rom m ^^^ e).setWidth 32)) s ⟨false, m.setWidth 32⟩ := by
  apply answers_decode_message
  rw [operand24_setWidth]
  exact decode24_of_near hadm (by rwa [encode24_xor_xor_cancel])

/-- Settles O22: the codeword itself is the case of no bit flipped. -/
theorem correctsUpToThreeErrors : Obligations.CorrectsUpToThreeErrors := by
  intro s hadm m
  refine ⟨_, answers_encode_message s m, ?_, fun e _ he => answers_decode_of_wt_le_three hadm m he, fun h => ?_⟩
  · simpa using answers_decode_of_wt_le_three hadm m (e := 0#24) (by decide)
  · have hvalue := congrArg (BitVec.setWidth 16) h
    rw [BitVec.setWidth_setWidth (by decide)] at hvalue
    exact setWidth_ne_errResult m hvalue

/-- Settles O23: a codeword within distance 3 would be within distance 7 of the codeword sent, so the same one, which is at
distance 4. -/
theorem detectsFourErrors : Obligations.DetectsFourErrors := by
  intro s hadm m e he
  refine ⟨_, answers_encode_message s m, answers_decode (v := errResult) ?_⟩
  rw [operand24_setWidth]
  refine decode24_of_far hadm.symmetric hadm.involutive fun m' => ?_
  by_contra hnear
  have hfour : wt (encode24 s.rom m ^^^ e ^^^ encode24 s.rom m) = 4 := by rw [encode24_xor_xor_cancel, he]
  have hle := wt_encode24_xor_le s.rom (encode24 s.rom m ^^^ e) m m'
  obtain rfl := eq_of_wt_encode24_xor_lt hadm.distance (a := m) (b := m') (by omega)
  omega

end Sys2Proof.Proofs
end

section
/-! How a codeword shifts the decision, the steps of DECODE in order, and the examples under REF. Settles O17, O24 and O25. -/

namespace Sys2Proof.Proofs

open Sys2Proof.Machine Sys2Proof.Laws

/-! ### A codeword shifts the decision -/

/-- A branch with a message XORed onto its own. -/
def translateBranch (m : Word12) : DecodeBranch → DecodeBranch
  | .step2 v => .step2 (m ^^^ v)
  | .step4 v => .step4 (m ^^^ v)
  | .step5 i v => .step5 i (m ^^^ v)
  | .step6 i v => .step6 i (m ^^^ v)
  | .step7 => .step7

/-- A branch with another message is step 7 exactly when it was. -/
theorem translateBranch_eq_step7_iff (m : Word12) (b : DecodeBranch) : translateBranch m b = .step7 ↔ b = .step7 := by
  cases b <;> simp [translateBranch]

/-- The value of a branch other than step 7 with a message XORed onto its own. -/
theorem branchValue_translateBranch (m : Word12) {b : DecodeBranch} (h : b ≠ .step7) :
    branchValue (translateBranch m b) = m.setWidth 16 ^^^ branchValue b := by
  cases b with
  | step2 | step4 | step5 | step6 => exact BitVec.setWidth_xor
  | step7 => exact absurd rfl h

/-- Step 5's search reads the data half only for the message that it gives. -/
theorem searchData_xor (G : GenMatrix) (m a d p p2 : Word12) :
    searchData G (m ^^^ d) (a ^^^ p) (a ^^^ p2) = (searchData G d p p2).map (translateBranch m) := by
  unfold searchData
  rw [List.map_findSome?]
  refine congrArg (List.findSome? · matrixIndices) (funext fun i => ?_)
  have hword : a ^^^ p2 ^^^ matrixRow G i ^^^ (a ^^^ p) = p2 ^^^ matrixRow G i ^^^ p := by
    rw [BitVec.xor_assoc a, xor_xor_xor_cancel]
  simp only [Function.comp_apply, hword]
  split
  · rw [BitVec.xor_assoc, Option.map_some, translateBranch]
  · rfl

/-- Step 6's search shifts with its two words. -/
theorem searchParity_xor (G : GenMatrix) (m d d2 : Word12) :
    searchParity G (m ^^^ d) (m ^^^ d2) = (searchParity G d d2).map (translateBranch m) := by
  unfold searchParity
  rw [List.map_findSome?]
  refine congrArg (List.findSome? · matrixIndices) (funext fun i => ?_)
  have hword : m ^^^ d2 ^^^ matrixRow G i ^^^ (m ^^^ d) = d2 ^^^ matrixRow G i ^^^ d := by
    rw [BitVec.xor_assoc m, xor_xor_xor_cancel]
  simp only [Function.comp_apply, hword]
  split
  · rw [BitVec.xor_assoc, Option.map_some, translateBranch]
  · rfl

/-- Under P2 the decision on a codeword with an error is the decision on the error, with the message XORed on: no condition
reads more than the syndromes (R57, R67). -/
theorem decodeBranch_encode24_xor {G : GenMatrix} (hinv : G.Involutive) (m : Word12) (e : Word24) :
    decodeBranch G (encode24 G m ^^^ e) = translateBranch m (decodeBranch G e) := by
  have hd : m ^^^ dataHalf e = dataHalf (encode24 G m ^^^ e) := by
    rw [BitVec.xor_comm (encode24 G m), dataHalf_xor_encode24, BitVec.xor_comm]
  have hp : matmul12 G m ^^^ parityHalf e = parityHalf (encode24 G m ^^^ e) := by
    rw [BitVec.xor_comm (encode24 G m), parityHalf_xor_encode24, BitVec.xor_comm]
  have hp2 : matmul12 G m ^^^ matmul12 G (dataHalf e) = matmul12 G (m ^^^ dataHalf e) := (matmul12_xor ..).symm
  have hd2 : m ^^^ matmul12 G (parityHalf e) = matmul12 G (matmul12 G m ^^^ parityHalf e) := by rw [matmul12_xor, hinv]
  by_cases h2 : matmul12 G (dataHalf e) = parityHalf e ∨ wt (parityHalf e ^^^ matmul12 G (dataHalf e)) ≤ 3
  · rw [decodeBranch_of_step2 rfl rfl rfl h2]
    exact decodeBranch_of_step2 hd hp hp2 (by rwa [BitVec.xor_right_inj, xor_xor_xor_cancel])
  have h2' : ¬ (matmul12 G m ^^^ matmul12 G (dataHalf e) = matmul12 G m ^^^ parityHalf e ∨
      wt (matmul12 G m ^^^ parityHalf e ^^^ (matmul12 G m ^^^ matmul12 G (dataHalf e))) ≤ 3) := by
    rwa [BitVec.xor_right_inj, xor_xor_xor_cancel]
  by_cases h4 : wt (matmul12 G (parityHalf e) ^^^ dataHalf e) ≤ 3
  · rw [decodeBranch_of_step4 rfl rfl rfl rfl h2 h4]
    exact decodeBranch_of_step4 hd hp hp2 hd2 h2' (by rwa [xor_xor_xor_cancel])
  · rw [decodeBranch_of_search rfl rfl rfl rfl h2 h4,
      decodeBranch_of_search hd hp hp2 hd2 h2' (by rwa [xor_xor_xor_cancel]), searchData_xor, searchParity_xor,
      ← Option.map_or]
    exact Option.getD_map (translateBranch m) .step7 _

/-- Settles O24: the value of the shifted branch. -/
theorem translationLaw : Obligations.TranslationLaw := by
  intro s hinv m e
  refine ⟨decode24 s.rom e, answers_decode (by rw [operand24_setWidth]), fun herror => ?_, fun hmessage => ?_⟩
  · refine answers_decode (v := errResult) ?_
    rw [operand24_setWidth, decode24, decodeBranch_encode24_xor hinv, branchValue_eq_errResult_iff,
      translateBranch_eq_step7_iff]
    exact (branchValue_eq_errResult_iff _).mp herror
  · have hne : decodeBranch s.rom e ≠ .step7 := mt (branchValue_eq_errResult_iff _).mpr hmessage
    rw [← BitVec.setWidth_setWidth (x := m) (v := 16) (by decide), ← BitVec.setWidth_xor]
    apply answers_decode
    rw [operand24_setWidth, decode24, decodeBranch_encode24_xor hinv, branchValue_translateBranch m hne, decode24]

/-! ### The steps in order, and the examples under REF -/

/-- A codeword decodes to its message, under any matrix: step 2 decides. -/
theorem decode24_encode24 (G : GenMatrix) (m : Word12) : decode24 G (encode24 G m) = m.setWidth 16 := by
  have hbranch : decodeBranch G (encode24 G m) = .step2 m :=
    decodeBranch_of_step2 (dataHalf_encode24 G m).symm (parityHalf_encode24 G m).symm rfl (.inl rfl)
  rw [decode24, hbranch, branchValue]

/-- Settles O17: the equation of each branch, and codewords for the corner cases. -/
theorem decodeAnswersStepwise : Obligations.DecodeAnswersStepwise := by
  intro s x d p p2 d2 hd hp hp2 hd2
  rw [← dataHalf_operand24] at hd
  rw [← parityHalf_operand24] at hp
  refine ⟨rfl, ⟨_, answers_decode rfl, fun h2 => ?_, fun h2 h4 => ?_, fun h2 h4 i h5 hfirst => ?_,
    fun h2 h4 h5 i h6 hfirst => ?_, fun h2 h4 h5 h6 => ?_⟩, fun hadm _ h4 i => ?_,
    answers_decode_message (m := 0#12) ?_, fun hadm => answers_decode_message (m := 0xFFF#12) ?_,
    ⟨_, answers_decode rfl, answers_decode (by rw [operand24_and_lowBits])⟩,
    fun href => answers_decode_message (m := 0x123#12) ?_⟩
  · exact congrArg branchValue (decodeBranch_of_step2 hd hp hp2 h2)
  · exact congrArg branchValue (decodeBranch_of_step4 hd hp hp2 hd2 h2 h4)
  · exact congrArg branchValue (decodeBranch_of_step5 hd hp hp2 hd2 h2 h4 (i := i) h5 hfirst)
  · exact congrArg branchValue (decodeBranch_of_step6 hd hp hp2 hd2 h2 h4 h5 (i := i) h6 hfirst)
  · exact congrArg branchValue (decodeBranch_of_step7 hd hp hp2 hd2 h2 h4 h5 h6)
  · subst hd hp hp2 hd2
    exact step5_word_wt_ne_zero hadm.symmetric hadm.involutive h4 i
  · have hzero : operand24 0#32 = 0#24 := by decide
    rw [hzero, ← encode24_zero s.rom, decode24_encode24]
  · have hones : operand24 0xFFFFFF#32 = BitVec.allOnes 24 := by decide
    rw [hones, ← encode24_allOnes hadm.symmetric hadm.involutive, decode24_encode24]
    rfl
  · have hexample : operand24 0x92365E#32 = 0x92365E#24 := by decide
    rw [href, hexample]
    refine decode24_of_near refMatrix_admissible ?_
    rw [encode24_refMatrix_example]
    decide

/-- Settles O25: step 2's condition holds at distance 3; the product of 0x800 is REF's first row. -/
theorem fiveErrorsGiveWrongMessage : Obligations.FiveErrorsGiveWrongMessage := by
  intro s href
  have hproduct : matmul12 refMatrix 0x800#12 = 0xDC5#12 := matmul12_unitMsb refMatrix_symmetric 0
  have hbranch : decodeBranch refMatrix 0x800D80#24 = .step2 0x800#12 :=
    decodeBranch_of_step2 (p := 0xD80#12) (by decide) (by decide) hproduct.symm (.inr (by decide))
  have hoperand : operand24 0x800D80#32 = 0x800D80#24 := by decide
  rw [href]
  refine ⟨answers_decode_message (m := 0x800#12) ?_, hbranch, ?_, ?_⟩
  · rw [href, hoperand, decode24, hbranch, branchValue]
  · rw [encode24_zero]; decide
  · rw [encode24, hproduct]; decide

end Sys2Proof.Proofs
end

section
/-! Legal and illegal requests: the five operations complete, the reserved opcodes take the illegal-operation response and the
block goes on, and the fault record tells the two kinds of run apart. Settles O28, O29 and O44. -/

namespace Sys2Proof.Proofs

open Sys2Proof.Machine Sys2Proof.Laws

/-- An instruction below the reserved opcodes answers with ILLEGAL = 0, and records no fault (R69). -/
theorem answers_of_legal {i : Instr} (h : (opOf i).toNat < 5) (s : State) :
    Answers i s ⟨false, (responseTo s.rom i).result⟩ := by
  have hlegal : (responseTo s.rom i).illegal = false := by rw [responseTo_illegal, decide_eq_false (Nat.not_le.mpr h)]
  exact answers_of_responseTo (by rw [← hlegal]) rfl

/-- Settles O28: the OP of each of the five is below 5. -/
theorem fiveOperationsAreTotal : Obligations.FiveOperationsAreTotal := by
  intro s x i hi
  have hlegal : (opOf i).toNat < 5 := by
    simp only [List.mem_cons, List.not_mem_nil, or_false] at hi
    rcases hi with rfl | rfl | rfl | rfl | rfl <;> simp [opOf]
  exact ⟨_, answers_of_legal hlegal s⟩

/-- A reserved opcode raises IllegalOp and ends in a next state (R71). -/
theorem exec_of_reserved {i : Instr} (h : 5 ≤ (opOf i).toNat) (s : State) : exec i s = .next (raiseIllegalOp i s) := by
  rw [exec_eq, responseTo_of_reserved _ h]
  rfl

/-- With nothing at the port, a step runs the oldest request on the state without it (R88). -/
theorem step_eq_exec_of_pending_cons {s : State} {w : Req} {rest : List Req} (hport : s.port = [])
    (hpending : s.pending = w :: rest) : step s = exec (decode w) { s with pending := rest } := by
  rw [step_of_pending_cons hport hpending, exec_eq, encode_decode]

/-- Settles O29: the fields of `raiseIllegalOp`, which leaves the next request at the head of the FIFO. -/
theorem reservedOpcodesAnswerIllegal : Obligations.ReservedOpcodesAnswerIllegal := by
  refine ⟨fun s x i hi => ?_, fun s w v rest hw hport hpending => ?_⟩
  · have hreserved : 5 ≤ (opOf i).toNat := by
      simp only [List.mem_cons, List.not_mem_nil, or_false] at hi
      rcases hi with rfl | rfl | rfl <;> simp [opOf]
    have hop : reqOp (encode i) = opOf i := reqOp_requestWord ..
    exact ⟨_, _, exec_of_reserved hreserved s, raiseIllegalOp_rsp .., raiseIllegalOp_transcript ..,
      raiseIllegalOp_faults .., hop, raiseIllegalOp_rom .., raiseIllegalOp_pending .., raiseIllegalOp_port ..⟩
  · have hreserved : 5 ≤ (opOf (decode w)).toNat := by
      have hall : ∀ code ∈ [0b101#3, 0b110#3, 0b111#3], 5 ≤ code.toNat := by decide
      rw [(opOf_decode w).1]
      exact hall _ hw
    refine ⟨_, (step_eq_exec_of_pending_cons hport hpending).trans (exec_of_reserved hreserved _),
      raiseIllegalOp_rsp .., raiseIllegalOp_rom .., raiseIllegalOp_pending .., ?_⟩
    exact step_eq_exec_of_pending_cons (by rw [raiseIllegalOp_port, hport]) (raiseIllegalOp_pending ..)

/-- A transcript calls for no fault exactly when none of its responses has ILLEGAL = 1. -/
theorem illegalOpsFrom_eq_nil_iff (n : Nat) (ps : List (Req × Response)) :
    illegalOpsFrom n ps = [] ↔ ∀ p ∈ ps, p.2.illegal = false := by
  induction ps generalizing n with
  | nil => simp [illegalOpsFrom]
  | cons p ps ih => cases hp : p.2.illegal <;> simp [illegalOpsFrom, hp, ih]

/-- Settles O44: the invariant gives the fault record as a function of the transcript. -/
theorem noFaultMeansNoIllegalResponse : Obligations.NoFaultMeansNoIllegalResponse := by
  intro s hs
  rw [State.noIllegalOp, List.isEmpty_iff, hs.faults, illegalOpsFrom_eq_nil_iff]

end Sys2Proof.Proofs
end

section
/-! Steps that serve, reset and the first request after it, and the ROM that no step changes. Settles O34, O36, O38 and O41. -/

namespace Sys2Proof.Proofs

open Sys2Proof.Machine Sys2Proof.Laws

/-! ### The first request after reset -/

/-- A request accepted from the port into an empty FIFO, with nothing else at the port, is answered in the step after it
(R86, R88). -/
theorem run_two_of_accept {s : State} {w : Req} (hport : s.port = [.accept w]) (hpending : s.pending = []) :
    Host.Core.run core 2 s =
      .next (answerWith w (responseTo s.rom (decode w)) { s with pending := [], port := [] }) := by
  have haccept : step s = .next { s with pending := [w], port := [] } := by
    rw [acceptJoinsLast s w [] hport, hpending, List.nil_append]
  exact (run_succ_of_step (M := core) haccept 1).trans (run_succ_of_step (M := core) (step_of_pending_cons rfl rfl) 0)

/-- Settles O38: reset leaves the FIFO empty, and the matrix and the transcript as they were. -/
theorem firstRequestAfterResetIsServed : Obligations.FirstRequestAfterResetIsServed := by
  intro s w
  refine ⟨_, responseTo s.rom (decode w), run_two_of_accept rfl rfl, responseOf_eq s.rom w, answerWith_rsp .., ?_, ?_⟩
  · exact answerWith_transcript ..
  · exact answerWith_pending ..

/-! ### The ROM -/

/-- No step changes the matrix: it answers a request, accepts one, resets, or is read (R83). -/
theorem step_keeps_rom {s t : State} (h : step s = .next t) : t.rom = s.rom := by
  obtain ⟨u, hu, ht⟩ | ⟨w, es, -, rfl⟩ | ⟨e, es, -, -, rfl⟩ | ⟨es, r, -, -, rfl⟩ := step_cases h
  · have hurom : u.rom = s.rom := by obtain rfl | ⟨es, -, rfl⟩ := hu <;> rfl
    obtain rfl | ⟨w, rest, -, hexec⟩ := ht
    · exact hurom
    · obtain ⟨htrom, -⟩ := execFrame _ _ _ hexec
      exact htrom.trans hurom
  · exact acceptRequest_rom ..
  · exact resetInput_rom ..
  · rfl

/-- Settles O41: the matrix at reset, after the reset input and after a step. -/
theorem romNeverChanges : Obligations.RomNeverChanges :=
  ⟨rfl, resetInput_rom, fun _ _ => step_keeps_rom⟩

/-! ### Serving -/

/-- A serve event first at the port runs the oldest request, on the state without it and without the event. -/
theorem step_serve_of_pending_cons {s : State} {w : Req} {rest : List Req} {es : List PortEvent}
    (hport : s.port = .serve :: es) (hpending : s.pending = w :: rest) :
    step s = exec (decode w) { s with pending := rest, port := es } := by
  have hserve := serveTurn_of_cons (s := { s with port := es }) hpending
  rw [step, nextTurn_of_cons hport, eventTurn, hserve, runTurn]

/-- A request placed for the next step is run by it, on the state it was placed in. -/
theorem step_placeRequest (w : Req) (s : State) : step (placeRequest w s) = exec (decode w) s :=
  step_serve_of_pending_cons (placeRequest_port w s) (placeRequest_pending w s)

/-- Fetching a number that is a request places that request. -/
theorem withFetchWord_of_ok {nbits w : Nat} {r : Req} (h : requestOfNat nbits w = .ok r) (s : State) :
    s.withFetchWord nbits w = placeRequest r s := by
  rw [State.withFetchWord, h]

/-- Settles O34: a port without an event, a serve event, and the request placed by `withFetchWord`. -/
theorem stepRunsDecodedRequest : Obligations.StepRunsDecodedRequest := by
  refine ⟨fun s w rest hpending => ⟨fun hport => ?_, fun es hport => ?_⟩, fun s nbits w r hr => ?_⟩
  · exact step_eq_exec_of_pending_cons hport hpending
  · exact step_serve_of_pending_cons hport hpending
  · rw [withFetchWord_of_ok hr, step_placeRequest]

/-! ### Reset and loss of power -/

/-- Power removed and restored has the effect of the reset input (log entry 18). -/
theorem step_powerCycle {s : State} {es : List PortEvent} (hport : s.port = .powerCycle :: es) :
    step s = .next (resetInput { s with port := es }) := by
  rw [step, nextTurn_of_cons hport, eventTurn, runTurn]

/-- Settles O36: either event is the reset input. -/
theorem resetDiscardsRequestsInFlight : Obligations.ResetDiscardsRequestsInFlight := by
  rintro s es (hreset | hpower)
  · exact step_reset hreset
  · exact step_powerCycle hpower

end Sys2Proof.Proofs
end

section
/-! Two choices of the model: the fault entry of a reserved opcode, and the step of an idle block. Settles O30 and O39. -/

namespace Sys2Proof.Proofs

open Sys2Proof.Machine Sys2Proof.Laws

/-- A reserved opcode's whole next state: the illegal response, and one fault entry with its position and OP (R71). -/
theorem answersIllegal_of_reserved {i : Instr} (h : 5 ≤ (opOf i).toNat) (s : State) : AnswersIllegal i s := by
  have hop : reqOp (encode i) = opOf i := reqOp_requestWord ..
  rw [AnswersIllegal, exec_of_reserved h, raiseIllegalOp, recordIllegalOp, hop]
  rfl

/-- Settles O30: each of the three OP values is at least 5, and is the upper field of its request word (R41). -/
theorem reservedOpcodesNextState : Obligations.ReservedOpcodesNextState := by
  intro s x
  refine ⟨⟨answersIllegal_of_reserved ?_ s, rfl⟩, ⟨answersIllegal_of_reserved ?_ s, rfl⟩,
    ⟨answersIllegal_of_reserved ?_ s, rfl⟩⟩ <;> simp [opOf]

/-- Settles O39: the turn serves, and serving an empty FIFO settles in the same state (log entry 3). -/
theorem idleStepChangesNothing : Obligations.IdleStepChangesNothing := by
  intro s hport hpending
  rw [step, nextTurn_of_nil hport, serveTurn_of_nil hpending, runTurn]

end Sys2Proof.Proofs
end
